-- ==== Sys2Proof/Word.lean ====
section
/-! DEFINITION. The plain value types of the block: the 32-bit command and response word (spec 30_encoding R80, R84), the
byte of the output stream (20_memory R69), the 24-bit colour (00_scope R10) and the name of a colour-table bank (R6). -/

namespace Sys2Proof

/-- A command word or a response word (30_encoding R80, R84). -/
abbrev Word := BitVec 32

/-- One byte of the output stream (20_memory R69). -/
abbrev Byte := BitVec 8

/-- A colour: the 24-bit value with red in bits 23:16, green in 15:8, blue in 7:0 (20_memory R65). -/
abbrev Color := BitVec 24

/-- The `NT = 2` colour-table banks (00_scope R6): bank 0 "global", bank 1 "local"; the block treats them alike. -/
inductive BankId where
  | bank0
  | bank1
deriving DecidableEq, Repr

end Sys2Proof
end

