-- ==== Sys2Proof/Syntax.lean ====
section
/-! DEFINITION. The 24 commands of spec/opcode_table.json, one constructor each (30_encoding R81). Slot, index, width and
code operands are the natural numbers their fields are read as (R83). -/

namespace Sys2Proof

/-- A command. Operand order is the assembler's (30_encoding R88). -/
inductive Instr where
  | sysNop
  | sysReset
  | sysStatus
  | packTcf (hasTable colorResolution sort size : Nat)
  | packIcf (hasTable interlace sort size : Nat)
  | packGcf (disposal waitForInput hasTransparency : Nat)
  | ctNew (t : BankId)
  | ctInsert (t : BankId) (c : Color)
  | ctLookup (t : BankId) (c : Color)
  | ctColorAt (t : BankId) (i : Nat)
  | ctReserve (t : BankId)
  | ctTransp (t : BankId)
  | ctSize (t : BankId)
  | ctDeclen (t : BankId)
  | ctBytelen (t : BankId)
  | ctUlen (t : BankId)
  | ctSerialize (t : BankId)
  | lzwStart (t : BankId)
  | lzwSym (k : Nat)
  | lzwPix (c : Color)
  | lzwEnd
  | lzwNext
  | bpPush (v width : Nat)
  | bpFlush
deriving DecidableEq, Repr

end Sys2Proof
end

