-- ==== Sys2Proof/WellFormed.lean ====
section
/-! DEFINITION. Which commands have an encoding: every operand fits the field of its format (30_encoding R82). -/

namespace Sys2Proof

/-- A 4-bit slot of formats N4 and N3, or the width field of format P. -/
def fitsSlot (x : Nat) : Bool := decide (x < 2 ^ 4)

/-- The 12-bit code field of format P. -/
def fitsCode (x : Nat) : Bool := decide (x < 2 ^ 12)

/-- The 16-bit index field of format I. -/
def fitsIndex (x : Nat) : Bool := decide (x < 2 ^ 16)

/-- Every operand fits its field (R82). Banks and colours fit by their type. -/
def Instr.wellFormed : Instr → Bool
  | .sysNop => true
  | .sysReset => true
  | .sysStatus => true
  | .packTcf a b c d => fitsSlot a && fitsSlot b && fitsSlot c && fitsSlot d
  | .packIcf a b c d => fitsSlot a && fitsSlot b && fitsSlot c && fitsSlot d
  | .packGcf a b c => fitsSlot a && fitsSlot b && fitsSlot c
  | .ctNew _ => true
  | .ctInsert _ _ => true
  | .ctLookup _ _ => true
  | .ctColorAt _ i => fitsIndex i
  | .ctReserve _ => true
  | .ctTransp _ => true
  | .ctSize _ => true
  | .ctDeclen _ => true
  | .ctBytelen _ => true
  | .ctUlen _ => true
  | .ctSerialize _ => true
  | .lzwStart _ => true
  | .lzwSym k => fitsIndex k
  | .lzwPix _ => true
  | .lzwEnd => true
  | .lzwNext => true
  | .bpPush v width => fitsCode v && fitsSlot width
  | .bpFlush => true

end Sys2Proof
end

