-- ==== Sys2Proof/Decode.lean ====
section
/-! DEFINITION. Decoding a 32-bit command word (30_encoding R80 to R83, R86), the encoder written from the same rules, and
the mask and match columns of spec/opcode_table.json. The decoder is total and rejects by name. -/

namespace Sys2Proof

/-- Why a word is illegal (R86). Either reason raises Fault(IllegalCommand). -/
inductive IllegalWord where
  /-- `op` is not in the table of R81. -/
  | unassignedOpcode (op : Nat)
  /-- A bit of `arg` that the row's format does not use is 1. -/
  | unusedOperandBits (op arg : Nat)
deriving DecidableEq, Repr

/-- `op = cmd[31:24]` (R80). -/
def opField (cmd : Word) : Nat := (cmd.extractLsb' 24 8).toNat

/-- `arg = cmd[23:0]` (R80). -/
def argField (cmd : Word) : Nat := (cmd.extractLsb' 0 24).toNat

/-- `arg[hi:lo]` as a natural number (00_scope R8). -/
def bitsOf (v hi lo : Nat) : Nat := v / 2 ^ lo % 2 ^ (hi - lo + 1)

/-- A format that uses only the bits of `arg` below `used`: any higher bit set is illegal (R86). -/
def withUsedBits (used op arg : Nat) (i : Instr) : Except IllegalWord Instr :=
  if arg < 2 ^ used then .ok i else .error (.unusedOperandBits op arg)

/-- Format Z (R82): `arg` must be 0. -/
def formatZ (op arg : Nat) (i : Instr) : Except IllegalWord Instr := withUsedBits 0 op arg i

/-- Format C (R82): all 24 bits are the colour. -/
def formatC (arg : Nat) (f : Color → Instr) : Except IllegalWord Instr := .ok (f (BitVec.ofNat 24 arg))

/-- Format I (R82): `i = arg[15:0]`. -/
def formatI (op arg : Nat) (f : Nat → Instr) : Except IllegalWord Instr :=
  withUsedBits 16 op arg (f (bitsOf arg 15 0))

/-- The bank a bank bit names. -/
def bankOfBit (b : Nat) : BankId := if b = 0 then .bank0 else .bank1

/-- Format T (R82): `t = arg[0]`. -/
def formatT (op arg : Nat) (f : BankId → Instr) : Except IllegalWord Instr :=
  withUsedBits 1 op arg (f (bankOfBit (bitsOf arg 0 0)))

/-- Format N4 (R82): slots `arg[15:12]`, `arg[11:8]`, `arg[7:4]`, `arg[3:0]`. -/
def formatN4 (op arg : Nat) (f : Nat → Nat → Nat → Nat → Instr) : Except IllegalWord Instr :=
  withUsedBits 16 op arg (f (bitsOf arg 15 12) (bitsOf arg 11 8) (bitsOf arg 7 4) (bitsOf arg 3 0))

/-- Format N3 (R82): slots `arg[11:8]`, `arg[7:4]`, `arg[3:0]`. -/
def formatN3 (op arg : Nat) (f : Nat → Nat → Nat → Instr) : Except IllegalWord Instr :=
  withUsedBits 12 op arg (f (bitsOf arg 11 8) (bitsOf arg 7 4) (bitsOf arg 3 0))

/-- Format P (R82): `width = arg[15:12]`, `v = arg[11:0]`. -/
def formatP (op arg : Nat) (f : Nat → Nat → Instr) : Except IllegalWord Instr :=
  withUsedBits 16 op arg (f (bitsOf arg 11 0) (bitsOf arg 15 12))

/-- The colour-table rows of R81: function `op[3:0]` on bank `t = op[4]`; functions 0xB..0xF are illegal. -/
def decodeCt (op fn : Nat) (t : BankId) (arg : Nat) : Except IllegalWord Instr :=
  match fn with
  | 0x0 => formatZ op arg (.ctNew t)
  | 0x1 => formatC arg (.ctInsert t)
  | 0x2 => formatC arg (.ctLookup t)
  | 0x3 => formatI op arg (.ctColorAt t)
  | 0x4 => formatZ op arg (.ctReserve t)
  | 0x5 => formatZ op arg (.ctTransp t)
  | 0x6 => formatZ op arg (.ctSize t)
  | 0x7 => formatZ op arg (.ctDeclen t)
  | 0x8 => formatZ op arg (.ctBytelen t)
  | 0x9 => formatZ op arg (.ctUlen t)
  | 0xA => formatZ op arg (.ctSerialize t)
  | _ => .error (.unassignedOpcode op)

/-- The row of R81 that `op` names, and its operands from `arg`. -/
def decodeFields (op arg : Nat) : Except IllegalWord Instr :=
  if bitsOf op 7 5 = 0b001 then decodeCt op (bitsOf op 3 0) (bankOfBit (bitsOf op 4 4)) arg
  else
    match op with
    | 0x00 => formatZ op arg .sysNop
    | 0x01 => formatZ op arg .sysReset
    | 0x02 => formatZ op arg .sysStatus
    | 0x10 => formatN4 op arg .packTcf
    | 0x11 => formatN4 op arg .packIcf
    | 0x12 => formatN3 op arg .packGcf
    | 0x40 => formatT op arg .lzwStart
    | 0x41 => formatI op arg .lzwSym
    | 0x42 => formatC arg .lzwPix
    | 0x43 => formatZ op arg .lzwEnd
    | 0x44 => formatZ op arg .lzwNext
    | 0x50 => formatP op arg .bpPush
    | 0x51 => formatZ op arg .bpFlush
    | _ => .error (.unassignedOpcode op)

/-- Decode a command word (R80, R81, R86). -/
def decode (cmd : Word) : Except IllegalWord Instr := decodeFields (opField cmd) (argField cmd)

/-- `op` of a CT command: `0x20 + 16 t + function` (R81). -/
def ctOpcode (t : BankId) (fn : Nat) : Nat :=
  match t with
  | .bank0 => 0x20 + fn
  | .bank1 => 0x30 + fn

/-- The opcode of a command (R81). -/
def Instr.opcode : Instr → Nat
  | .sysNop => 0x00
  | .sysReset => 0x01
  | .sysStatus => 0x02
  | .packTcf _ _ _ _ => 0x10
  | .packIcf _ _ _ _ => 0x11
  | .packGcf _ _ _ => 0x12
  | .ctNew t => ctOpcode t 0x0
  | .ctInsert t _ => ctOpcode t 0x1
  | .ctLookup t _ => ctOpcode t 0x2
  | .ctColorAt t _ => ctOpcode t 0x3
  | .ctReserve t => ctOpcode t 0x4
  | .ctTransp t => ctOpcode t 0x5
  | .ctSize t => ctOpcode t 0x6
  | .ctDeclen t => ctOpcode t 0x7
  | .ctBytelen t => ctOpcode t 0x8
  | .ctUlen t => ctOpcode t 0x9
  | .ctSerialize t => ctOpcode t 0xA
  | .lzwStart _ => 0x40
  | .lzwSym _ => 0x41
  | .lzwPix _ => 0x42
  | .lzwEnd => 0x43
  | .lzwNext => 0x44
  | .bpPush _ _ => 0x50
  | .bpFlush => 0x51

/-- How many low bits of `arg` a command's format uses (R82, column "Used bits"). -/
def Instr.usedBits : Instr → Nat
  | .sysNop => 0
  | .sysReset => 0
  | .sysStatus => 0
  | .packTcf _ _ _ _ => 16
  | .packIcf _ _ _ _ => 16
  | .packGcf _ _ _ => 12
  | .ctNew _ => 0
  | .ctInsert _ _ => 24
  | .ctLookup _ _ => 24
  | .ctColorAt _ _ => 16
  | .ctReserve _ => 0
  | .ctTransp _ => 0
  | .ctSize _ => 0
  | .ctDeclen _ => 0
  | .ctBytelen _ => 0
  | .ctUlen _ => 0
  | .ctSerialize _ => 0
  | .lzwStart _ => 1
  | .lzwSym _ => 16
  | .lzwPix _ => 24
  | .lzwEnd => 0
  | .lzwNext => 0
  | .bpPush _ _ => 16
  | .bpFlush => 0

/-- Slots of format N4 laid into `arg` (R82). -/
def argN4 (f0 f1 f2 f3 : Nat) : Nat := f0 * 2 ^ 12 + f1 * 2 ^ 8 + f2 * 2 ^ 4 + f3

/-- The operand field of a command (R82). -/
def Instr.operands : Instr → Nat
  | .sysNop => 0
  | .sysReset => 0
  | .sysStatus => 0
  | .packTcf a b c d => argN4 a b c d
  | .packIcf a b c d => argN4 a b c d
  | .packGcf a b c => argN4 0 a b c
  | .ctNew _ => 0
  | .ctInsert _ c => c.toNat
  | .ctLookup _ c => c.toNat
  | .ctColorAt _ i => i
  | .ctReserve _ => 0
  | .ctTransp _ => 0
  | .ctSize _ => 0
  | .ctDeclen _ => 0
  | .ctBytelen _ => 0
  | .ctUlen _ => 0
  | .ctSerialize _ => 0
  | .lzwStart .bank0 => 0
  | .lzwStart .bank1 => 1
  | .lzwSym k => k
  | .lzwPix c => c.toNat
  | .lzwEnd => 0
  | .lzwNext => 0
  | .bpPush v width => width * 2 ^ 12 + v
  | .bpFlush => 0

/-- The word of a well-formed command (R80). -/
def encode (i : Instr) : Word := BitVec.ofNat 32 (i.opcode * 2 ^ 24 + i.operands)

/-- The `match` and `mask` columns of spec/opcode_table.json, in the table's order (R86). -/
def tableRows : List (Word × Word) :=
  [(0x00000000, 0xFFFFFFFF), (0x01000000, 0xFFFFFFFF), (0x02000000, 0xFFFFFFFF),
   (0x10000000, 0xFFFF0000), (0x11000000, 0xFFFF0000), (0x12000000, 0xFFFFF000),
   (0x20000000, 0xEFFFFFFF), (0x21000000, 0xEF000000), (0x22000000, 0xEF000000),
   (0x23000000, 0xEFFF0000), (0x24000000, 0xEFFFFFFF), (0x25000000, 0xEFFFFFFF)] ++
  [(0x26000000, 0xEFFFFFFF), (0x27000000, 0xEFFFFFFF), (0x28000000, 0xEFFFFFFF),
   (0x29000000, 0xEFFFFFFF), (0x2A000000, 0xEFFFFFFF), (0x40000000, 0xFFFFFFFE),
   (0x41000000, 0xFFFF0000), (0x42000000, 0xFF000000), (0x43000000, 0xFFFFFFFF),
   (0x44000000, 0xFFFFFFFF), (0x50000000, 0xFFFF0000), (0x51000000, 0xFFFFFFFF)]

/-- A word matches a row when the row's masked bits are the row's (R86). -/
def matchesRow (cmd : Word) (row : Word × Word) : Bool := cmd &&& row.2 == row.1

/-- The command word whose bits, numbered as spec/opcode_table.json numbers them, are `w`: the bits at and above `nbits`
are 0. A command is one 32-bit word, so no word order is involved. -/
def tableWord (nbits w : Nat) : Word := BitVec.ofNat 32 (w % 2 ^ nbits)

/-- What the decoder reads from those bits. -/
def decodeTableWord (nbits w : Nat) : Option Instr :=
  match decode (tableWord nbits w) with
  | .ok i => some i
  | .error _ => none

end Sys2Proof
end

