-- ==== Sys2Proof/Config.lean ====
section
/-! DEFINITION. The implementation parameters of spec 00_scope R6, and the one host-side parameter the spec leaves OPEN. -/

namespace Sys2Proof.Config

/-- `MAX_COLORS` (R6): the most colours a bank holds. -/
def maxColors : Nat := 256

/-- `MIN_DECLARED` (R6): the floor of the declared length (90_conflicts C1). -/
def minDeclared : Nat := 2

/-- `MIN_CODE_SIZE_FLOOR` (R6). -/
def minCodeSizeFloor : Nat := 2

/-- `MAX_CODE_WIDTH` (R6): "the hard maximum". -/
def maxCodeWidth : Nat := 12

/-- `MAX_CODES` (R6): `2^MAX_CODE_WIDTH`, the value of `lzw.next` at which the dictionary is full (10_state R35;
log 14). -/
def maxCodes : Nat := 4096

/-- `BP_MIN_WIDTH` (R6). -/
def bpMinWidth : Nat := 2

/-- `BP_MAX_WIDTH` (R6). -/
def bpMaxWidth : Nat := 12

/-- `CHUNK_LZW_PAYLOAD` (R6, 44 R241): whether the HOST chunks the bytes of a compressed stream. The document leaves it
OPEN, so it has no body here (log 12). The block's own behaviour never reads it. -/
opaque chunkLzwPayload : Bool

end Sys2Proof.Config
end

