-- ==== Sys2Proof/Machine/State.lean ====
section
/-! DEFINITION. The state of the block (spec 10_state.md, table R46), the model's command and response ports, the stop
reasons, and the state after reset. -/

namespace Sys2Proof.Machine

/-- The block's fault causes (60_exceptions R251). Their numbers are `FaultCode.code` in Flags.lean. Raising one is a NEXT
state of the model (R252): these are no stop reasons. -/
inductive FaultCode where
  | illegalCommand
  | fieldOverflow
  | duplicateColor
  | notFound
  | indexOutOfRange
  | tableFull
  | tableSealed
  | badPhase
  | emptyInput
  | badWidth
  | codeTooWide
  | badDisposal
deriving DecidableEq, Repr

/-- `lzw.phase` (10_state R30); the value 3 never occurs, and this type has no such value (U23). -/
inductive Phase where
  | idle
  | first
  | run
deriving DecidableEq, Repr

/-- One colour-table bank `ct[t]` (10_state R24). The store is the list of its `n` explicit colours in insertion order:
"a list of length n is exact" (R46; log 5). -/
structure Bank where
  colors : List Color
  rsv : Bool
  sealed : Bool
deriving DecidableEq, Repr

/-- `ct[t].n`, the `underlying_length` (10_state R24). -/
def Bank.n (b : Bank) : Nat := b.colors.length

/-- A bank as reset and CT_NEW leave it (10_state R46, 41 R130). -/
def Bank.empty : Bank := { colors := [], rsv := false, sealed := false }

/-- The dynamic part of the dictionary (10_state R36): extension entries, oldest first, each a sequence and its code
(log 6). -/
abbrev Dict := List (List Nat × Nat)

/-- The LZW unit (10_state R30 to R37). Numbers are naturals, as the rules use them; their ranges are invariants (log 7). -/
structure Lzw where
  phase : Phase
  sf : Nat
  bank : BankId
  m : Nat
  w : Nat
  next : Nat
  dict : Dict
  buf : List Nat
deriving DecidableEq, Repr

/-- The bit packer (10_state R41, R42). Bit 0 of `acc` is the oldest buffered bit. -/
structure Packer where
  nbits : Nat
  acc : Nat
deriving DecidableEq, Repr

/-- The MODEL's command and response ports, not the spec's state (log 1, log 2): the words the host has issued and the block
has not taken yet, next first; and the responses given so far, oldest first (30_encoding R80, R84). -/
structure Port where
  commands : List Word
  responses : List Word
deriving DecidableEq, Repr

/-- The whole state (10_state R46). -/
structure State where
  /-- `fault` (R22): `none` is the code 0, no fault (log 4). -/
  fault : Option FaultCode
  /-- `out` (R23): every byte emitted since reset, in emission order (log 11). -/
  out : List Byte
  /-- `ct[0]` (R24). -/
  ct0 : Bank
  /-- `ct[1]` (R24). -/
  ct1 : Bank
  /-- The LZW unit (R30 to R37). -/
  lzw : Lzw
  /-- The bit packer (R41, R42). -/
  bp : Packer
  /-- The model's ports (log 1, log 2). -/
  port : Port
deriving DecidableEq, Repr

/-- Why a step can STOP. The block's own faults are no stops (60_exceptions R252): they are next states. -/
inductive Fault where
  /-- Raised by LZW_SYM, LZW_PIX and LZW_END when the working buffer is no known sequence, so that `code_of` is undefined
  (42_lzw R172: "defined only when known(s)"). Safe: the model stops where the spec gives no code, and no reachable state
  is such a state (10_state R37; log 8). -/
  | bufferUnknown
deriving DecidableEq, Repr

/-- Why a command has no meaning. -/
inductive Refusal where
  /-- Raised by a dispatch arm with no meaning yet. Safe: the model stops. No arm raises it: every command is modelled. -/
  | notModelled (mnemonic : String)
deriving DecidableEq, Repr

/-- The outcome of a command. -/
abbrev Result := Host.Outcome State Fault Refusal

/-- The LZW unit after reset (10_state R46). -/
def Lzw.reset : Lzw :=
  { phase := .idle, sf := 0, bank := .bank0, m := 2, w := 3, next := 6, dict := [], buf := [] }

/-- The packer after reset (10_state R46). -/
def Packer.reset : Packer := { nbits := 0, acc := 0 }

/-- The machine right after power-up (10_state R46, 70 R280); no command is waiting and none has been answered. -/
def State.reset : State :=
  { fault := none, out := [], ct0 := .empty, ct1 := .empty, lzw := .reset, bp := .reset,
    port := { commands := [], responses := [] } }

end Sys2Proof.Machine
end

