-- ==== Sys2Proof/Machine/Operands.lean ====
section
/-! DEFINITION. The helper functions of spec 00_scope R9, the components of a colour operand, and the packing of
sub-field operands into a byte (40_packed_bitfield R110). -/

namespace Sys2Proof.Machine

/-- `fits(v, w)` (00_scope R9). -/
def fits (v w : Nat) : Bool := decide (v < 2 ^ w)

/-- The least `e >= start` with `n <= 2^e`, looked for over `fuel` exponents. -/
def ceilLog2From : Nat → Nat → Nat → Nat
  | 0, start, _ => start
  | fuel + 1, start, n => if n ≤ 2 ^ start then start else ceilLog2From fuel (start + 1) n

/-- The least `e` with `n <= 2^e`. -/
def ceilLog2 (n : Nat) : Nat := ceilLog2From n 0 n

/-- `clp2(n)`: the least power of two that is at least `n` (00_scope R9). -/
def clp2 (n : Nat) : Nat := 2 ^ ceilLog2 n

/-- `is_pow2(n)` (00_scope R9); `is_pow2(0)` is false. -/
def isPow2 (n : Nat) : Bool := decide (clp2 n = n)

/-- `log2(p)` (00_scope R9), which the spec defines only on powers of two and uses only there (log 9). -/
def log2 (p : Nat) : Nat := ceilLog2 p

/-- `dl(n, rsv)` (41_color_table R131): the floor of 2 is applied last (92 D5). -/
def declaredLength (n : Nat) (rsv : Bool) : Nat :=
  let p := clp2 (max n 1)
  let p := if rsv && isPow2 n then 2 * p else p
  max Config.minDeclared p

/-- `sf = log2(dl) - 1` (10_state R27). -/
def sizeField (n : Nat) (rsv : Bool) : Nat := log2 (declaredLength n rsv) - 1

/-- `min_code_size` of a size field: `m = max(2, 1 + sf)` (42_lzw R170). -/
def minCodeSize (sf : Nat) : Nat := max Config.minCodeSizeFloor (1 + sf)

/-- Black, the padding colour (41 R143). -/
def black : Color := 0#24

/-- The bytes of a colour in emission order: red, green, blue (20_memory R65). -/
def colorBytes (c : Color) : List Byte := [c.extractLsb' 16 8, c.extractLsb' 8 8, c.extractLsb' 0 8]

/-- Every sub-field value fits its declared width (40 R110, the check). -/
def fieldsFit (fields : List (Nat × Nat)) : Bool := fields.all fun f => fits f.1 f.2

/-- `pack(fields)` (40 R110, the assembly): `(value, width)` pairs, first-named sub-field in the highest bits. -/
def packFields (fields : List (Nat × Nat)) : Nat := fields.foldl (fun acc f => acc * 2 ^ f.2 + f.1) 0

/-- The table-color-field layout (30_encoding R90, 40 R112). -/
def tcfFields (hasTable colorResolution sort size : Nat) : List (Nat × Nat) :=
  [(hasTable, 1), (colorResolution, 3), (sort, 1), (size, 3)]

/-- The image-color-field layout; the reserved sub-field is always 0 (30_encoding R90, 40 R113). -/
def icfFields (hasTable interlace sort size : Nat) : List (Nat × Nat) :=
  [(hasTable, 1), (interlace, 1), (sort, 1), (0, 2), (size, 3)]

/-- The graphic-control-field layout; the reserved sub-field is always 0 (30_encoding R90, 40 R114). -/
def gcfFields (disposal waitForInput hasTransparency : Nat) : List (Nat × Nat) :=
  [(0, 3), (disposal, 3), (waitForInput, 1), (hasTransparency, 1)]

/-- The largest ordinal of the closed disposal enumeration (40 R115): restore-previous. -/
def maxDisposal : Nat := 3

end Sys2Proof.Machine
end

