-- ==== Sys2Proof/Machine/Flags.lean ====
section
/-! DEFINITION. The fault numbers (60_exceptions R251), the response word (30_encoding R84), the status flags (10_state
R44) and the status word of SYS_STATUS (44 R232). -/

namespace Sys2Proof.Machine

/-- The fault numbers (60_exceptions R251). -/
def FaultCode.code : FaultCode → Nat
  | .illegalCommand => 1
  | .fieldOverflow => 2
  | .duplicateColor => 3
  | .notFound => 4
  | .indexOutOfRange => 5
  | .tableFull => 6
  | .tableSealed => 7
  | .badPhase => 8
  | .emptyInput => 9
  | .badWidth => 10
  | .codeTooWide => 11
  | .badDisposal => 12

/-- The 7-bit `fault` register as a number: 0 means no fault (10_state R22). -/
def faultNumber : Option FaultCode → Nat
  | none => 0
  | some c => c.code

/-- The flag `fault != 0` (10_state R44). -/
def State.faulted (s : State) : Bool := s.fault.isSome

/-- The response word (30_encoding R84): `F`, the fault code, and the result, which is 0 when `F = 1`.
Every result of a reachable state fits 24 bits (00_scope R17; log 9). -/
def responseWord (fault : Option FaultCode) (value : Nat) : Word :=
  match fault with
  | none => 0#1 ++ 0#7 ++ BitVec.ofNat 24 value
  | some c => 1#1 ++ BitVec.ofNat 7 c.code ++ 0#24

/-- `lzw.phase` as its 2-bit number (10_state R30). -/
def Phase.code : Phase → Nat
  | .idle => 0
  | .first => 1
  | .run => 2

/-- A bank as its 1-bit number (10_state R32). -/
def bankNumber : BankId → Nat
  | .bank0 => 0
  | .bank1 => 1

/-- The SYS_STATUS value (44 R232): phase in 1:0, `w` in 5:2, `m` in 9:6, `sf` in 12:10, bank in 13, `nbits` in 16:14. -/
def statusValue (s : State) : Nat :=
  s.lzw.phase.code + s.lzw.w * 2 ^ 2 + s.lzw.m * 2 ^ 6 + s.lzw.sf * 2 ^ 10 + bankNumber s.lzw.bank * 2 ^ 13 +
    s.bp.nbits * 2 ^ 14

/-- `declared_length` of a bank (10_state R26). -/
def Bank.declaredLength (b : Bank) : Nat := Machine.declaredLength b.n b.rsv

/-- `size_field` of a bank (10_state R27). -/
def Bank.sizeField (b : Bank) : Nat := Machine.sizeField b.n b.rsv

/-- `byte_length` of a bank (10_state R28). -/
def Bank.byteLength (b : Bank) : Nat := 3 * b.declaredLength

/-- `transparent_index` of a bank, meaningful once `rsv` is set (10_state R29). -/
def Bank.transparentIndex (b : Bank) : Nat := b.declaredLength - 1

/-- How many explicit colours a bank may hold: `256 - rsv` (41 R134). -/
def Bank.capacity (b : Bank) : Nat := Config.maxColors - (if b.rsv then 1 else 0)

end Sys2Proof.Machine
end

