-- ==== Sys2Proof/Machine/Ops.lean ====
section
/-! DEFINITION. The named operations every command is written with: the command and response ports, entering and leaving a
fault, the banks, the output stream, the bit packer and the code table. -/

namespace Sys2Proof.Machine

/-! ### The command and response ports (30_encoding R80, R84; log 1, log 2) -/

/-- The command word the block takes next, if the host has issued one. -/
def State.pendingCommand (s : State) : Option Word := s.port.commands.head?

/-- The host issues a command word that the block takes before any other. -/
def State.issueNext (s : State) (cmd : Word) : State :=
  { s with port := { s.port with commands := cmd :: s.port.commands } }

/-- Complete the current command: it leaves the command port and its one response is given, computed from the fault
register as the command leaves it (30_encoding R84). -/
def State.answer (s : State) (value : Nat) : State :=
  { s with port := { commands := s.port.commands.tail,
                     responses := s.port.responses ++ [responseWord s.fault value] } }

/-- `respond(v)` (00_scope R12). -/
def respond (value : Nat) (s : State) : Result := .next (s.answer value)

/-! ### Faults (60_exceptions R252 to R254) -/

/-- Fault entry, `raise Fault(name)` (60_exceptions R252): `fault` takes the code, nothing else of the block is written, and
the response carries the code. -/
def raiseFault (c : FaultCode) (s : State) : Result := .next (State.answer { s with fault := some c } 0)

/-- The sticky fault (60_exceptions R253): while a fault stands the command is not executed and the stored code is
answered. -/
def unlessFaulted (s : State) (run : Result) : Result :=
  if s.faulted then .next (s.answer 0) else run

/-- The only exit from a fault (60_exceptions R254, 44 R231): every piece of the block's state takes its reset value. The
ports are the host's side and stay (log 13). -/
def State.resetBlock (s : State) : State := { State.reset with port := s.port }

/-- A word that is no legal command (30_encoding R86), behind the sticky fault (60_exceptions R255). -/
def execIllegal (s : State) : Result := unlessFaulted s (raiseFault .illegalCommand s)

/-! ### Colour-table banks (10_state R24) -/

/-- Bank `t`. -/
def State.bank (s : State) (t : BankId) : Bank :=
  match t with
  | .bank0 => s.ct0
  | .bank1 => s.ct1

/-- Write bank `t`. -/
def State.setBank (s : State) (t : BankId) (b : Bank) : State :=
  match t with
  | .bank0 => { s with ct0 := b }
  | .bank1 => { s with ct1 := b }

/-- The index of a colour (41 R135): the `i < n` with `color[i] = c`, unique by 10_state R25(a). -/
def Bank.indexOf (b : Bank) (c : Color) : Option Nat := b.colors.findIdx? (fun d => d == c)

/-- What reading index `i` gives (41 R136, R143): the stored colour below `n`, black above. -/
def Bank.colorAt (b : Bank) (i : Nat) : Color := b.colors.getD i black

/-- `color[n] <- c; n <- n + 1` (41 R132). -/
def Bank.insert (b : Bank) (c : Color) : Bank := { b with colors := b.colors ++ [c] }

/-- `rsv <- 1` (41 R137). -/
def Bank.reserve (b : Bank) : Bank := { b with rsv := true }

/-- `sealed <- 1` (41 R143). -/
def Bank.seal (b : Bank) : Bank := { b with sealed := true }

/-- The checks of CT_RESERVE and CT_TRANSP, only when `rsv = 0`: TableSealed, then TableFull (41 R137, R138). -/
def Bank.reserveFault (b : Bank) : Option FaultCode :=
  if b.rsv then none
  else if b.sealed then some .tableSealed
  else if b.n ≤ 255 then none
  else some .tableFull

/-- The colour-table block (30_encoding R91): `dl` colours, three bytes each. -/
def Bank.serialBytes (b : Bank) : List Byte :=
  (List.range b.declaredLength).flatMap fun i => colorBytes (b.colorAt i)

/-! ### The output stream (10_state R23) -/

/-- `emit_byte(b)` (00_scope R12). -/
def State.emitByte (s : State) (b : Byte) : State := { s with out := s.out ++ [b] }

/-- Several bytes, in order. -/
def State.emitBytes (s : State) (bs : List Byte) : State := { s with out := s.out ++ bs }

/-! ### The bit packer (43 R211, R212) -/

/-- One round of the packer's loop: the lowest 8 buffered bits leave as one byte (43 R211). -/
def State.drainByte (s : State) : State :=
  { s.emitByte (BitVec.ofNat 8 s.bp.acc) with bp := { nbits := s.bp.nbits - 8, acc := s.bp.acc / 256 } }

/-- That many rounds of the loop. -/
def State.drainBytes : Nat → State → State
  | 0, s => s
  | k + 1, s => State.drainBytes k s.drainByte

/-- `bp_push(v, width)` (43 R211). The loop "while bp.nbits >= 8" takes 8 bits a round, so it runs `nbits div 8` times. -/
def State.bpPush (s : State) (v width : Nat) : State :=
  State.drainBytes ((s.bp.nbits + width) / 8)
    { s with bp := { nbits := s.bp.nbits + width, acc := s.bp.acc + v * 2 ^ s.bp.nbits } }

/-- `bp_flush()` (43 R212). -/
def State.bpFlush (s : State) : State :=
  { (if s.bp.nbits > 0 then s.emitByte (BitVec.ofNat 8 s.bp.acc) else s) with bp := { nbits := 0, acc := 0 } }

/-! ### The code table (42_lzw R171, R172, R175) -/

/-- `clear_code = 2^m` (42_lzw R171). -/
def Lzw.clearCode (l : Lzw) : Nat := 2 ^ l.m

/-- `end_code = 2^m + 1` (42_lzw R171). -/
def Lzw.endCode (l : Lzw) : Nat := 2 ^ l.m + 1

/-- `FIRST_CODE = 2^m + 2` (42_lzw R171). -/
def Lzw.firstCode (l : Lzw) : Nat := 2 ^ l.m + 2

/-- How many indices the open stream accepts: `2^(lzw.sf + 1)` (42_lzw R174, check 2). -/
def Lzw.indexBound (l : Lzw) : Nat := 2 ^ (l.sf + 1)

/-- `code_of(s)` under a code size and a dictionary (42_lzw R172), `none` where it is undefined. -/
def codeIn (m : Nat) (dict : Dict) : List Nat → Option Nat
  | [] => none
  | [k] => if k < 2 ^ m then some k else none
  | q => dict.lookup q

/-- `code_of(s)` (42_lzw R172). -/
def Lzw.codeOf (l : Lzw) (q : List Nat) : Option Nat := codeIn l.m l.dict q

/-- `known(s)` (42_lzw R172). -/
def Lzw.known (l : Lzw) (q : List Nat) : Bool := (l.codeOf q).isSome

/-- The code table emptied: `w <- m + 1`, no extension entry, `next <- 2^m + 2` (42_lzw R175). -/
def Lzw.clearTable (l : Lzw) : Lzw := { l with w := l.m + 1, dict := [], next := l.firstCode }

/-- The code table with one more entry, and the growth rule (42_lzw R175). -/
def Lzw.addEntry (l : Lzw) (q : List Nat) : Lzw :=
  { l with dict := l.dict ++ [(q, l.next)], next := l.next + 1,
           w := if l.next = 2 ^ l.w then l.w + 1 else l.w }

/-- `dict_insert(s)` (42_lzw R175). -/
def State.dictInsert (s : State) (q : List Nat) : State :=
  if s.lzw.next = Config.maxCodes then
    let s := s.bpPush s.lzw.clearCode Config.maxCodeWidth
    { s with lzw := s.lzw.clearTable }
  else { s with lzw := s.lzw.addEntry q }

/-- `lzw.buf <- q`. -/
def State.setBuf (s : State) (q : List Nat) : State := { s with lzw := { s.lzw with buf := q } }

/-- Steps 2 and 3 of the algorithm on one index (42_lzw R174): the code of LZW_SYM between its checks and its response.
`none` where `code_of(lzw.buf)` is undefined (log 8). -/
def State.takeIndex (s : State) (k : Nat) : Option State :=
  if s.lzw.phase = .first then some { s with lzw := { s.lzw with buf := [k], phase := .run } }
  else if s.lzw.known (s.lzw.buf ++ [k]) then some (s.setBuf (s.lzw.buf ++ [k]))
  else
    match s.lzw.codeOf s.lzw.buf with
    | none => none
    | some c => some (((s.bpPush c s.lzw.w).dictInsert (s.lzw.buf ++ [k])).setBuf [k])

/-- Take one index and respond (42_lzw R174, R178). -/
def takeIndexAndRespond (k value : Nat) (s : State) : Result :=
  match s.takeIndex k with
  | none => .fault .bufferUnknown
  | some s' => respond value s'

/-- The LZW unit and the packer as LZW_START writes them, before the clear code is pushed (42_lzw R173). -/
def State.openStream (s : State) (t : BankId) : State :=
  let sf := (s.bank t).sizeField
  let m := minCodeSize sf
  { s with lzw := { phase := .first, sf := sf, bank := t, m := m, w := m + 1, next := 2 ^ m + 2, dict := [], buf := [] },
           bp := { nbits := 0, acc := 0 } }

/-- The end of LZW_END, after its last flush: `lzw.buf <- []; lzw.phase <- IDLE` (42_lzw R179). -/
def State.closeStream (s : State) : State := { s with lzw := { s.lzw with buf := [], phase := .idle } }

end Sys2Proof.Machine
end

