-- ==== Sys2Proof/Machine/BitPacker.lean ====
section
/-! DEFINITION. BP_PUSH and BP_FLUSH (spec 43_bit_packer). -/

namespace Sys2Proof.Machine

/-- BP_PUSH (43 R213): BadPhase, then BadWidth, then CodeTooWide. -/
def execBpPush (v width : Nat) (s : State) : Result :=
  unlessFaulted s <|
    if s.lzw.phase ≠ .idle then raiseFault .badPhase s
    else if width < Config.bpMinWidth ∨ Config.bpMaxWidth < width then raiseFault .badWidth s
    else if fits v width then respond 0 (s.bpPush v width)
    else raiseFault .codeTooWide s

/-- BP_FLUSH (43 R214). -/
def execBpFlush (s : State) : Result :=
  unlessFaulted s <|
    if s.lzw.phase ≠ .idle then raiseFault .badPhase s
    else respond 0 s.bpFlush

end Sys2Proof.Machine
end

