-- ==== Sys2Proof/Machine/ColorTable.lean ====
section
/-! DEFINITION. The eleven CT commands (spec 41_color_table). -/

namespace Sys2Proof.Machine

/-- CT_NEW (41 R130). -/
def execCtNew (t : BankId) (s : State) : Result := unlessFaulted s (respond 0 (s.setBank t .empty))

/-- CT_INSERT (41 R132): TableSealed, then DuplicateColor, then TableFull; the response is the old `n`. -/
def execCtInsert (t : BankId) (c : Color) (s : State) : Result :=
  let b := s.bank t
  unlessFaulted s <|
    if b.sealed then raiseFault .tableSealed s
    else if c ∈ b.colors then raiseFault .duplicateColor s
    else if b.n < b.capacity then respond b.n (s.setBank t (b.insert c))
    else raiseFault .tableFull s

/-- CT_LOOKUP (41 R135). -/
def execCtLookup (t : BankId) (c : Color) (s : State) : Result :=
  unlessFaulted s <|
    match (s.bank t).indexOf c with
    | none => raiseFault .notFound s
    | some i => respond i s

/-- CT_COLOR_AT (41 R136). -/
def execCtColorAt (t : BankId) (i : Nat) (s : State) : Result :=
  unlessFaulted s <|
    if i < (s.bank t).declaredLength then respond ((s.bank t).colorAt i).toNat s
    else raiseFault .indexOutOfRange s

/-- CT_RESERVE (41 R137). -/
def execCtReserve (t : BankId) (s : State) : Result :=
  unlessFaulted s <|
    match (s.bank t).reserveFault with
    | some c => raiseFault c s
    | none => respond 0 (s.setBank t (s.bank t).reserve)

/-- CT_TRANSP (41 R138): the flag is set first, and the value uses the flag as now set. -/
def execCtTransp (t : BankId) (s : State) : Result :=
  unlessFaulted s <|
    match (s.bank t).reserveFault with
    | some c => raiseFault c s
    | none => respond (s.bank t).reserve.transparentIndex (s.setBank t (s.bank t).reserve)

/-- CT_SIZE (41 R139). -/
def execCtSize (t : BankId) (s : State) : Result := unlessFaulted s (respond (s.bank t).sizeField s)

/-- CT_DECLEN (41 R140). -/
def execCtDeclen (t : BankId) (s : State) : Result := unlessFaulted s (respond (s.bank t).declaredLength s)

/-- CT_BYTELEN (41 R141). -/
def execCtBytelen (t : BankId) (s : State) : Result := unlessFaulted s (respond (s.bank t).byteLength s)

/-- CT_ULEN (41 R142). -/
def execCtUlen (t : BankId) (s : State) : Result := unlessFaulted s (respond (s.bank t).n s)

/-- CT_SERIALIZE (41 R143). -/
def execCtSerialize (t : BankId) (s : State) : Result :=
  let b := s.bank t
  unlessFaulted s <|
    if s.lzw.phase = .idle then respond b.byteLength ((s.emitBytes b.serialBytes).setBank t b.seal)
    else raiseFault .badPhase s

end Sys2Proof.Machine
end

