-- ==== Sys2Proof/Machine/Compressor.lean ====
section
/-! DEFINITION. The LZW commands (spec 42_lzw) and the status read LZW_NEXT (44 R233). -/

namespace Sys2Proof.Machine

/-- LZW_START (42_lzw R173): a fresh code table and bit stream from the named bank, then the clear code. -/
def execLzwStart (t : BankId) (s : State) : Result :=
  unlessFaulted s <|
    if s.lzw.phase = .idle then
      let o := s.openStream t
      respond o.lzw.m (o.bpPush o.lzw.clearCode o.lzw.w)
    else raiseFault .badPhase s

/-- LZW_SYM (42_lzw R174). -/
def execLzwSym (k : Nat) (s : State) : Result :=
  unlessFaulted s <|
    if s.lzw.phase = .idle then raiseFault .badPhase s
    else if k < s.lzw.indexBound then takeIndexAndRespond k 0 s
    else raiseFault .indexOutOfRange s

/-- LZW_PIX (42_lzw R178): the lookup is in the stream's bank as it is now. -/
def execLzwPix (c : Color) (s : State) : Result :=
  unlessFaulted s <|
    if s.lzw.phase = .idle then raiseFault .badPhase s
    else
      match (s.bank s.lzw.bank).indexOf c with
      | none => raiseFault .notFound s
      | some i => if i < s.lzw.indexBound then takeIndexAndRespond i i s else raiseFault .indexOutOfRange s

/-- LZW_END (42_lzw R179): the final buffer's code, the end code at the same width, and a flush. -/
def execLzwEnd (s : State) : Result :=
  unlessFaulted s <|
    match s.lzw.phase with
    | .idle => raiseFault .badPhase s
    | .first => raiseFault .emptyInput s
    | .run =>
      match s.lzw.codeOf s.lzw.buf with
      | none => .fault .bufferUnknown
      | some c => respond 0 ((s.bpPush c s.lzw.w).bpPush s.lzw.endCode s.lzw.w).bpFlush.closeStream

/-- LZW_NEXT (44 R233). -/
def execLzwNext (s : State) : Result := unlessFaulted s (respond s.lzw.next s)

end Sys2Proof.Machine
end

