-- ==== Sys2Proof/Machine/PackedField.lean ====
section
/-! DEFINITION. PACK_TCF, PACK_ICF, PACK_GCF (spec 40_packed_bitfield). -/

namespace Sys2Proof.Machine

/-- The byte of a layout, or FieldOverflow (40 R110). -/
def packAndRespond (fields : List (Nat × Nat)) (s : State) : Result :=
  if fieldsFit fields then respond (packFields fields) s else raiseFault .fieldOverflow s

/-- PACK_TCF (40 R112). -/
def execPackTcf (hasTable colorResolution sort size : Nat) (s : State) : Result :=
  unlessFaulted s (packAndRespond (tcfFields hasTable colorResolution sort size) s)

/-- PACK_ICF (40 R113). -/
def execPackIcf (hasTable interlace sort size : Nat) (s : State) : Result :=
  unlessFaulted s (packAndRespond (icfFields hasTable interlace sort size) s)

/-- PACK_GCF (40 R114): the fit check first, then the closed enumeration. -/
def execPackGcf (disposal waitForInput hasTransparency : Nat) (s : State) : Result :=
  let fields := gcfFields disposal waitForInput hasTransparency
  unlessFaulted s <|
    if !fieldsFit fields then raiseFault .fieldOverflow s
    else if disposal > maxDisposal then raiseFault .badDisposal s
    else respond (packFields fields) s

end Sys2Proof.Machine
end

