-- ==== Sys2Proof/Machine/System.lean ====
section
/-! DEFINITION. SYS_NOP, SYS_RESET, SYS_STATUS (spec 44_system_and_utilities). -/

namespace Sys2Proof.Machine

/-- SYS_NOP (44 R230). -/
def execSysNop (s : State) : Result := unlessFaulted s (respond 0 s)

/-- SYS_RESET (44 R231): executed while faulted too. -/
def execSysReset (s : State) : Result := respond 0 s.resetBlock

/-- SYS_STATUS (44 R232). -/
def execSysStatus (s : State) : Result := unlessFaulted s (respond (statusValue s) s)

end Sys2Proof.Machine
end

