-- ==== Sys2Proof/Machine/Dispatch.lean ====
section
/-! DEFINITION. One arm per command of spec/opcode_table.json. -/

namespace Sys2Proof.Machine

def exec (i : Instr) (s : State) : Host.Outcome State Fault Refusal :=
  match i with
  | .sysNop => Sys2Proof.Machine.execSysNop s
  | .sysReset => Sys2Proof.Machine.execSysReset s
  | .sysStatus => Sys2Proof.Machine.execSysStatus s
  | .packTcf hasTable colorResolution sort size => Sys2Proof.Machine.execPackTcf hasTable colorResolution sort size s
  | .packIcf hasTable interlace sort size => Sys2Proof.Machine.execPackIcf hasTable interlace sort size s
  | .packGcf disposal waitForInput hasTransparency => Sys2Proof.Machine.execPackGcf disposal waitForInput hasTransparency s
  | .ctNew t => Sys2Proof.Machine.execCtNew t s
  | .ctInsert t c => Sys2Proof.Machine.execCtInsert t c s
  | .ctLookup t c => Sys2Proof.Machine.execCtLookup t c s
  | .ctColorAt t idx => Sys2Proof.Machine.execCtColorAt t idx s
  | .ctReserve t => Sys2Proof.Machine.execCtReserve t s
  | .ctTransp t => Sys2Proof.Machine.execCtTransp t s
  | .ctSize t => Sys2Proof.Machine.execCtSize t s
  | .ctDeclen t => Sys2Proof.Machine.execCtDeclen t s
  | .ctBytelen t => Sys2Proof.Machine.execCtBytelen t s
  | .ctUlen t => Sys2Proof.Machine.execCtUlen t s
  | .ctSerialize t => Sys2Proof.Machine.execCtSerialize t s
  | .lzwStart t => Sys2Proof.Machine.execLzwStart t s
  | .lzwSym k => Sys2Proof.Machine.execLzwSym k s
  | .lzwPix c => Sys2Proof.Machine.execLzwPix c s
  | .lzwEnd => Sys2Proof.Machine.execLzwEnd s
  | .lzwNext => Sys2Proof.Machine.execLzwNext s
  | .bpPush v width => Sys2Proof.Machine.execBpPush v width s
  | .bpFlush => Sys2Proof.Machine.execBpFlush s

end Sys2Proof.Machine
end

