-- ==== Sys2Proof/Machine/Step.lean ====
section
/-! DEFINITION. One step: the block takes the next command word, if one waits, and executes it (10_state R21, 20_memory
R70, 30_encoding R86). -/

namespace Sys2Proof.Machine

/-- One step (70 R293: "a command takes one step"). With no command waiting the block does nothing (60_exceptions R257: it
"speaks only when spoken to"; log 3). -/
def step (s : State) : Host.Outcome State Fault Refusal :=
  match s.pendingCommand with
  | none => .next s
  | some cmd =>
    match decode cmd with
    | .ok i => exec i s
    | .error _ => execIllegal s

/-- `s` with that command word first on the command port, where the step takes its next command (log 1). -/
def State.withFetchWord (s : State) (nbits w : Nat) : State := s.issueNext (tableWord nbits w)

end Sys2Proof.Machine
end

