-- ==== Sys2Proof/Machine/HostReference.lean ====
section
/-! DEFINITION. The functions the spec gives beside the commands: a stream as a function (42_lzw R181, 43_bit_packer R215),
the register form of the code table (10_state R39), the pseudo-commands (30_encoding R89) and the host's sub-block
chunking (44 R240, R241). No command reads any of them. -/

namespace Sys2Proof.Machine

/-! ### The bytes of a list of codes (43 R215) -/

/-- `T = w_1 + ... + w_j` for a list of codes `(v_r, w_r)`. -/
def codesWidth (codes : List (Nat × Nat)) : Nat := (codes.map Prod.snd).sum

/-- `N`: the codes laid end to end, the first lowest. -/
def codesValue : List (Nat × Nat) → Nat
  | [] => 0
  | c :: cs => c.1 + 2 ^ c.2 * codesValue cs

/-- The first `count` bytes of a number, lowest first: `b_i = (N div 2^(8i)) mod 256`. -/
def lowBytes (count value : Nat) : List Byte := (List.range count).map fun i => BitVec.ofNat 8 (value / 2 ^ (8 * i))

/-- `pack_lsb(codes)` (43 R215): `ceil(T / 8)` bytes. -/
def packLsb (codes : List (Nat × Nat)) : List Byte := lowBytes ((codesWidth codes + 7) / 8) (codesValue codes)

/-- `bp_push` of each code in turn. -/
def State.pushAll (s : State) (codes : List (Nat × Nat)) : State := codes.foldl (fun s c => s.bpPush c.1 c.2) s

/-! ### The code sequence of a stream (42_lzw R181) -/

/-- The loop of `compress` and its last line, from a code table and a buffer on. `none` where `code_of` is undefined. -/
def compressFrom (m w next : Nat) (dict : Dict) (buf : List Nat) : List Nat → Option (List (Nat × Nat))
  | [] => (codeIn m dict buf).map fun c => [(c, w), (2 ^ m + 1, w)]
  | k :: ks =>
    if (codeIn m dict (buf ++ [k])).isSome then compressFrom m w next dict (buf ++ [k]) ks
    else
      match codeIn m dict buf with
      | none => none
      | some c =>
        if next = Config.maxCodes then
          (compressFrom m (m + 1) (2 ^ m + 2) [] [k] ks).map fun r => (c, w) :: (2 ^ m, Config.maxCodeWidth) :: r
        else
          (compressFrom m (if next = 2 ^ w then w + 1 else w) (next + 1) (dict ++ [(buf ++ [k], next)]) [k] ks).map
            fun r => (c, w) :: r

/-- `compress(sf, ks)` (42_lzw R181), defined for a non-empty sequence of indices below `2^(sf + 1)`. -/
def compress (sf : Nat) : List Nat → Option (List (Nat × Nat))
  | [] => none
  | k :: ks =>
    let m := minCodeSize sf
    (compressFrom m (m + 1) (2 ^ m + 2) [] [k] ks).map fun r => (2 ^ m, m + 1) :: r

/-! ### The register form of the code table (10_state R39) -/

/-- A dictionary from pairs (prefix code, index) to codes, oldest first. -/
abbrev PairDict := List ((Nat × Nat) × Nat)

/-- The loop of `compress` in register form: the buffer is held as its code `cur`. -/
def compressRegistersFrom (m w next : Nat) (dict : PairDict) (cur : Nat) : List Nat → List (Nat × Nat)
  | [] => [(cur, w), (2 ^ m + 1, w)]
  | k :: ks =>
    match dict.lookup (cur, k) with
    | some c => compressRegistersFrom m w next dict c ks
    | none =>
      if next = Config.maxCodes then
        (cur, w) :: (2 ^ m, Config.maxCodeWidth) :: compressRegistersFrom m (m + 1) (2 ^ m + 2) [] k ks
      else
        (cur, w) ::
          compressRegistersFrom m (if next = 2 ^ w then w + 1 else w) (next + 1) (dict ++ [((cur, k), next)]) k ks

/-- `compress` in register form. -/
def compressRegisters (sf : Nat) : List Nat → Option (List (Nat × Nat))
  | [] => none
  | k :: ks =>
    let m := minCodeSize sf
    some ((2 ^ m, m + 1) :: compressRegistersFrom m (m + 1) (2 ^ m + 2) [] k ks)

/-! ### Sequences of commands and the pseudo-commands (20_memory R72, 30_encoding R89) -/

/-- Execute commands one after another (20_memory R72), stopping where one stops. -/
def execAll : List Instr → State → Result
  | [], s => .next s
  | i :: is, s =>
    match exec i s with
    | .next t => execAll is t
    | .fault r => .fault r
    | .refused r => .refused r

/-- `LZW_RUN t, [k0, ..., kj]` (R89). -/
def lzwRun (t : BankId) (ks : List Nat) : List Instr := .lzwStart t :: ks.map .lzwSym ++ [.lzwEnd]

/-- `LZW_FRAME t, [c0, ..., cj]` (R89). -/
def lzwFrame (t : BankId) (cs : List Color) : List Instr := .lzwStart t :: cs.map .lzwPix ++ [.lzwEnd]

/-- `CT_LOAD t, [c0, ..., cj]` (R89). -/
def ctLoad (t : BankId) (cs : List Color) : List Instr := .ctNew t :: cs.map (.ctInsert t)

/-- `BP_STREAM [(v0, w0), ..., (vj, wj)]` (R89). -/
def bpStream (codes : List (Nat × Nat)) : List Instr := codes.map (fun c => .bpPush c.1 c.2) ++ [.bpFlush]

/-- The disposal names (40 R115, R89), in ordinal order. -/
inductive Disposal where
  | unspecified
  | keep
  | restoreBackground
  | restorePrevious
deriving DecidableEq, Repr

/-- The ordinal of a disposal method (40 R115). -/
def Disposal.ordinal : Disposal → Nat
  | .unspecified => 0
  | .keep => 1
  | .restoreBackground => 2
  | .restorePrevious => 3

/-! ### Sub-block chunking, on the host's side (44 R240, R241) -/

/-- The runs of `subblocks`: each of at most 255 bytes behind its length byte. `fuel` bounds the number of runs. -/
def subblockRuns : Nat → List Byte → List Byte
  | 0, _ => []
  | fuel + 1, payload =>
    if payload.isEmpty then []
    else
      let j := min 255 payload.length
      BitVec.ofNat 8 j :: payload.take j ++ subblockRuns fuel (payload.drop j)

/-- `subblocks(payload)` (44 R240): the runs, then the zero-length terminator. A run takes at least one byte, so there are
at most `len(payload)` runs. -/
def subblocks (payload : List Byte) : List Byte := subblockRuns payload.length payload ++ [0#8]

/-- What the host writes into the file for the bytes of one stream (44 R241): chunked or not, as the OPEN parameter
says (log 12). -/
def hostPayload (bytes : List Byte) : List Byte := if Config.chunkLzwPayload then subblocks bytes else bytes

end Sys2Proof.Machine
end

