-- ==== Sys2Proof/Safety.lean ====
section
/-! DEFINITION. What a good state is (the invariants of spec 10_state R25, R37, R38, R41, R42) and the relations between the
state before and after a command in which claims are stated. -/

namespace Sys2Proof.Machine

/-- 10_state R25(a), (b): the colours of a bank are distinct, and there are at most `256 - rsv` of them. -/
def Bank.Inv (b : Bank) : Prop := b.colors.Nodup ∧ b.n ≤ b.capacity

/-- The canonical form of a dictionary under a code size (10_state R36, R38(c)): its codes are exactly
`2^m + 2 .. next - 1`, oldest first, and no sequence has two. -/
def Dict.wf (m next : Nat) (d : Dict) : Prop :=
  2 ^ m + 2 ≤ next ∧ d.map Prod.snd = List.range' (2 ^ m + 2) (next - (2 ^ m + 2)) ∧ (d.map Prod.fst).Nodup

/-- What holds of an entry (10_state R36, R37, R38(d)): a sequence of two or more legal indices, known without its last
index, and at most one longer than the number of entries up to and including it plus one. -/
def Lzw.entryInv (l : Lzw) (e : List Nat × Nat) : Prop :=
  2 ≤ e.1.length ∧ e.1.length + l.firstCode ≤ e.2 + 2 ∧ (∀ k ∈ e.1, k < l.indexBound) ∧ l.known e.1.dropLast = true

/-- The LZW invariants (10_state R33 to R38). They hold in every phase, IDLE included: reset and LZW_END leave them. -/
def Lzw.Inv (l : Lzw) : Prop :=
  l.sf ≤ 7 ∧ l.m = minCodeSize l.sf ∧
  (l.m + 1 ≤ l.w ∧ l.w ≤ Config.maxCodeWidth) ∧
  (2 ^ (l.w - 1) < l.next ∧ l.next ≤ 2 ^ l.w) ∧
  Dict.wf l.m l.next l.dict ∧ (∀ e ∈ l.dict, l.entryInv e) ∧
  (∀ k ∈ l.buf, k < l.indexBound) ∧
  (l.phase = .run → l.known l.buf = true) ∧ (l.phase ≠ .run → l.buf = [])

/-- 10_state R41, R42: fewer than 8 bits pending, and no bit set above them. -/
def Packer.Inv (p : Packer) : Prop := p.nbits ≤ 7 ∧ p.acc < 2 ^ p.nbits

/-- A good state: every unit's invariant. -/
def State.Inv (s : State) : Prop := s.ct0.Inv ∧ s.ct1.Inv ∧ s.lzw.Inv ∧ s.bp.Inv

/-! ### Frames and answers -/

/-- Both colour-table banks are as before. -/
def SameTables (s t : State) : Prop := t.ct0 = s.ct0 ∧ t.ct1 = s.ct1

/-- The LZW unit and the packer are as before. -/
def SameStream (s t : State) : Prop := t.lzw = s.lzw ∧ t.bp = s.bp

/-- All state of the block but `fault` is as before: the output, the tables, the LZW unit and the packer. -/
def SameBlock (s t : State) : Prop := t.out = s.out ∧ SameTables s t ∧ SameStream s t

/-- Exactly one more response was given, and it is `r` (30_encoding R84; the list of responses is the model's, log 2). -/
def Answers (s t : State) (r : Word) : Prop := t.port.responses = s.port.responses ++ [r]

/-- The response of a command that succeeds with a 24-bit value: `F = 0`, code 0 (30_encoding R84). -/
def okWord (value : Nat) : Word := BitVec.ofNat 32 value

/-- The response while faulted: `0x80000000 + code * 2^24` (30_encoding R84). -/
def faultWord (c : FaultCode) : Word := BitVec.ofNat 32 (0x80000000 + c.code * 2 ^ 24)

/-- The command succeeds from `s` in `t` with that value. -/
def Succeeds (i : Instr) (s t : State) (value : Nat) : Prop :=
  exec i s = .next t ∧ t.fault = none ∧ Answers s t (okWord value)

/-- The command succeeds with that value and changes no state of the block (20_memory R71). -/
def Reads (i : Instr) (s : State) (value : Nat) : Prop := ∃ t, Succeeds i s t value ∧ SameBlock s t

/-- The command ends with the block faulted with that code, nothing of the block but `fault` written, and the response
carries the code: a fault raised (60_exceptions R252) or a standing one answered (60_exceptions R253). -/
def EndsFaulted (i : Instr) (s : State) (c : FaultCode) : Prop :=
  ∃ t, exec i s = .next t ∧ t.fault = some c ∧ SameBlock s t ∧ Answers s t (faultWord c)

/-- Format Z (30_encoding R82): the opcode with a zero operand field is the command; with any other it is no legal word. -/
def EncodedZ (op : BitVec 8) (i : Instr) : Prop :=
  decode (op ++ 0#24) = .ok i ∧ ∀ arg : BitVec 24, arg ≠ 0#24 → ∃ e, decode (op ++ arg) = .error e

/-- Only colour-table bank `u` may have changed: not the output, the other bank, the LZW unit or the packer. -/
def OnlyBankChanges (u : BankId) (s t : State) : Prop :=
  t.out = s.out ∧ SameStream s t ∧ ∀ v, v ≠ u → t.bank v = s.bank v

/-- A command that writes colour-table bank `t` (41_color_table): CT_NEW, CT_INSERT, CT_RESERVE, CT_TRANSP, CT_SERIALIZE. -/
def writesBank (i : Instr) (t : BankId) : Prop :=
  i = .ctNew t ∨ (∃ c, i = .ctInsert t c) ∨ i = .ctReserve t ∨ i = .ctTransp t ∨ i = .ctSerialize t

/-- A command that writes the LZW unit or the packer (42_lzw, 43_bit_packer). -/
def writesStream (i : Instr) : Prop :=
  (∃ t, i = .lzwStart t) ∨ (∃ k, i = .lzwSym k) ∨ (∃ c, i = .lzwPix c) ∨ i = .lzwEnd ∨ (∃ v w, i = .bpPush v w) ∨
    i = .bpFlush

end Sys2Proof.Machine
end

