-- ==== Sys2Proof/Certificates/Slice0/Obligations.lean ====
section
/-! DEFINITION. The statements for the provers. Responses are read where the model records them (`port.responses`, log 2);
`Inv` is the conjunction of the spec's own invariants (Safety.lean). -/

open Sys2Proof Sys2Proof.Machine

/-! ### Encoding -/

/-- The decoder reads back every well-formed command from its word, every operand at every value (30_encoding R80 to R82). -/
def Obligations.DecodeOfEncodeIsInstr : Prop :=
  ∀ i : Instr, i.wellFormed = true → decode (encode i) = .ok i

/-- A word the decoder accepts is the word of the command it reads: no two words are one command (30_encoding R80 to R82). -/
def Obligations.EncodeOfDecodeIsWord : Prop :=
  ∀ (cmd : Word) (i : Instr), decode cmd = .ok i → i.wellFormed = true ∧ encode i = cmd

/-- A word is legal exactly when a row of the opcode table matches it, no word matches two rows, and 221 of the 256 `op`
values are unassigned (30_encoding R86). -/
def Obligations.LegalWordMatchesExactlyOneRow : Prop :=
  (∀ cmd : Word,
    ((∃ i, decode cmd = .ok i) ↔ ∃ row ∈ tableRows, matchesRow cmd row = true) ∧
    (tableRows.filter (matchesRow cmd)).length ≤ 1) ∧
  ((List.range 256).filter fun op =>
    tableRows.all fun row => !matchesRow (BitVec.ofNat 32 (op * 2 ^ 24)) row).length = 221

/-- Words the spec itself writes out decode to the commands it names, and words it calls illegal do not decode
(41, 42, 43, 44 worked examples; 95 P5). -/
def Obligations.SpecWordsDecodeRight : Prop :=
  decode 0x10001305 = .ok (.packTcf 1 3 0 5) ∧ decode 0x21FF0000 = .ok (.ctInsert .bank0 0xFF0000#24) ∧
  decode 0x33000007 = .ok (.ctColorAt .bank1 7) ∧ decode 0x40000001 = .ok (.lzwStart .bank1) ∧
  decode 0x41000001 = .ok (.lzwSym 1) ∧ decode 0x5000C801 = .ok (.bpPush 0x801 12) ∧
  decode 0x02000000 = .ok .sysStatus ∧
  decode 0x2B000000 = .error (.unassignedOpcode 0x2B) ∧ decode 0x10011305 = .error (.unusedOperandBits 0x10 0x011305)

/-! ### The step -/

/-- One step runs the command that the next waiting word decodes to; an illegal word is handled by fault entry; with no
word waiting the state stays. Which word is next is the model's command port (log 1), and the idle step is the model's
choice (log 3). -/
def Obligations.StepRunsDecodedCommand : Prop :=
  (∀ (s : State) (cmd : Word) (rest : List Word) (i : Instr),
    s.port.commands = cmd :: rest → decode cmd = .ok i → step s = exec i s) ∧
  (∀ (s : State) (cmd : Word) (rest : List Word) (e : IllegalWord),
    s.port.commands = cmd :: rest → decode cmd = .error e → step s = execIllegal s) ∧
  (∀ s : State, s.port.commands = [] → step s = .next s)

/-- An illegal word raises IllegalCommand and changes no other state; while a fault stands it answers the standing code
(30_encoding R86, 60_exceptions R255). Which word is next is the model's command port (log 1). -/
def Obligations.IllegalWordRaisesIllegalCommand : Prop :=
  ∀ (s : State) (cmd : Word) (rest : List Word) (e : IllegalWord),
    s.port.commands = cmd :: rest → decode cmd = .error e →
      ∃ t, step s = .next t ∧ SameBlock s t ∧
        (s.fault = none → t.fault = some .illegalCommand ∧ Answers s t 0x81000000#32) ∧
        (∀ c, s.fault = some c → t.fault = some c ∧ Answers s t (faultWord c))

/-- Every command takes exactly the word at the head of the command port (the model's port, log 1), SYS_RESET too
(log 13). -/
def Obligations.EveryCommandTakesOneWord : Prop :=
  ∀ (i : Instr) (s t : State), exec i s = .next t → t.port.commands = s.port.commands.tail

/-! ### Reset and the invariant -/

/-- The state after reset (10_state R46). The colours of an empty bank are none: the store keeps no unreadable entry. -/
def Obligations.ResetStateIsAsTabled : Prop :=
  State.reset.fault = none ∧ State.reset.out = [] ∧
  (∀ t, (State.reset.bank t).n = 0 ∧ (State.reset.bank t).colors = [] ∧ (State.reset.bank t).rsv = false ∧
    (State.reset.bank t).sealed = false) ∧
  State.reset.lzw.phase = .idle ∧ State.reset.lzw.sf = 0 ∧ State.reset.lzw.bank = .bank0 ∧ State.reset.lzw.m = 2 ∧
  State.reset.lzw.w = 3 ∧ State.reset.lzw.next = 6 ∧ State.reset.lzw.dict = [] ∧ State.reset.lzw.buf = [] ∧
  State.reset.bp.nbits = 0 ∧ State.reset.bp.acc = 0

/-- The invariant holds after reset (10_state R25, R38). -/
def Obligations.ResetMeetsInvariants : Prop := State.reset.Inv

/-- Every step keeps the invariant: distinct colours within capacity; code width, next code and dictionary in their
ranges and canonical form; a known buffer; fewer than 8 pending bits (10_state R25(a), R25(b), R33 to R38, R41, R42). -/
def Obligations.StepKeepsInvariants : Prop :=
  ∀ s t : State, s.Inv → step s = .next t → t.Inv

/-- In a good state every command, and every step, answers a next state: neither the model's stop nor a refusal is met. -/
def Obligations.EveryCommandCompletesInGoodStates : Prop :=
  ∀ s : State, s.Inv → (∀ i : Instr, ∃ t, exec i s = .next t) ∧ ∃ t, step s = .next t

/-- 10_state R25: distinct colours and capacity are kept; a bank never shrinks and its flags never clear, except by CT_NEW
on that bank or by reset; a sealed bank does not change, except by those two. -/
def Obligations.BankInvariantsAreKept : Prop :=
  (∀ u, (State.reset.bank u).Inv) ∧
  ∀ (i : Instr) (s t : State) (u : BankId), exec i s = .next t →
    ((s.bank u).Inv → (t.bank u).Inv) ∧
    (i ≠ .ctNew u → i ≠ .sysReset →
      (s.bank u).colors <+: (t.bank u).colors ∧
      ((s.bank u).rsv = true → (t.bank u).rsv = true) ∧
      ((s.bank u).sealed = true → t.bank u = s.bank u))

/-- 10_state R38(e), R37: in a good state with a stream running the buffer has a code, and that code, the clear code and
the end code are all below `2^w`; the buffer is no longer than `next - (2^m + 2) + 1`. -/
def Obligations.EmittableCodesFitTheWidth : Prop :=
  ∀ l : Lzw, l.Inv →
    l.clearCode < 2 ^ l.w ∧ l.endCode < 2 ^ l.w ∧
    (∀ q c, l.codeOf q = some c → c < 2 ^ l.w) ∧
    (l.phase = .run → (∃ c, l.codeOf l.buf = some c) ∧ l.buf.length ≤ l.next - l.firstCode + 1)

/-! ### Faults and responses -/

/-- Fault entry: a command that raises a fault writes `fault` and nothing else of the block, and its response carries the
code (60_exceptions R252). -/
def Obligations.FaultEntryWritesOnlyFault : Prop :=
  ∀ (i : Instr) (s t : State) (c : FaultCode), s.fault = none → exec i s = .next t → t.fault = some c →
    SameBlock s t ∧ Answers s t (faultWord c)

/-- The sticky fault: while it stands, every command but SYS_RESET writes nothing and answers the stored code
(60_exceptions R253). -/
def Obligations.StandingFaultRefusesCommands : Prop :=
  ∀ (i : Instr) (s : State) (c : FaultCode), s.fault = some c → i ≠ .sysReset → EndsFaulted i s c

/-- The only exit from a fault is SYS_RESET, which leaves the reset state (60_exceptions R254); the ports are the
model's (log 13). -/
def Obligations.OnlyResetLeavesFault : Prop :=
  (∀ (i : Instr) (s t : State) (c : FaultCode), s.fault = some c → exec i s = .next t → t.fault ≠ some c →
    i = .sysReset) ∧
  ∀ s : State, ∃ t, exec .sysReset s = .next t ∧ t = { State.reset with port := t.port }

/-- 60_exceptions R251: the numbers of the fault codes, and which commands raise which. -/
def Obligations.FaultsComeFromTheirCommands : Prop :=
  [FaultCode.illegalCommand, .fieldOverflow, .duplicateColor, .notFound, .indexOutOfRange, .tableFull, .tableSealed,
    .badPhase, .emptyInput, .badWidth, .codeTooWide, .badDisposal].map FaultCode.code =
      [1, 2, 3, 4, 5, 6, 7, 8, 9, 10, 11, 12] ∧
  ∀ (i : Instr) (s t : State) (c : FaultCode), s.fault = none → exec i s = .next t → t.fault = some c →
    match c with
    | .illegalCommand => False
    | .fieldOverflow => (∃ x y z w, i = .packTcf x y z w) ∨ (∃ x y z w, i = .packIcf x y z w) ∨ ∃ x y z, i = .packGcf x y z
    | .duplicateColor => ∃ u d, i = .ctInsert u d
    | .notFound => (∃ u d, i = .ctLookup u d) ∨ ∃ d, i = .lzwPix d
    | .indexOutOfRange => (∃ u k, i = .ctColorAt u k) ∨ (∃ k, i = .lzwSym k) ∨ ∃ d, i = .lzwPix d
    | .tableFull => (∃ u d, i = .ctInsert u d) ∨ (∃ u, i = .ctReserve u) ∨ ∃ u, i = .ctTransp u
    | .tableSealed => (∃ u d, i = .ctInsert u d) ∨ (∃ u, i = .ctReserve u) ∨ ∃ u, i = .ctTransp u
    | .badPhase => (∃ u, i = .lzwStart u) ∨ (∃ k, i = .lzwSym k) ∨ (∃ d, i = .lzwPix d) ∨ i = .lzwEnd ∨
        (∃ v w, i = .bpPush v w) ∨ i = .bpFlush ∨ ∃ u, i = .ctSerialize u
    | .emptyInput => i = .lzwEnd
    | .badWidth => ∃ v w, i = .bpPush v w
    | .codeTooWide => ∃ v w, i = .bpPush v w
    | .badDisposal => ∃ x y z, i = .packGcf x y z

/-- Every command gives exactly one response: bit 31 says whether the block is faulted after it, bits 30:24 are the fault
code or 0, and the value is 0 when faulted (30_encoding R84). -/
def Obligations.EveryCommandAnswersOnce : Prop :=
  ∀ (i : Instr) (s t : State), exec i s = .next t →
    ∃ r : Word, Answers s t r ∧ (r.extractLsb' 31 1 = 1#1 ↔ t.fault ≠ none) ∧
      (r.extractLsb' 24 7).toNat = faultNumber t.fault ∧ (t.fault ≠ none → r.extractLsb' 0 24 = 0#24)

/-! ### System commands -/

/-- SYS_NOP (44 R230). -/
def Obligations.SysNopDoesNothing : Prop :=
  EncodedZ 0x00#8 .sysNop ∧
  (∀ s : State, s.fault = none → Reads .sysNop s 0) ∧
  ∀ (s : State) (c : FaultCode), s.fault = some c → EndsFaulted .sysNop s c

/-- SYS_RESET (44 R231): from every state, faulted or not, every piece of the block's state takes its reset value; a word
with `op = 0x01` and a non-zero operand field is no SYS_RESET. -/
def Obligations.SysResetRestoresReset : Prop :=
  EncodedZ 0x01#8 .sysReset ∧
  ∀ s : State, ∃ t, Succeeds .sysReset s t 0 ∧ t.out = [] ∧ t.ct0 = State.reset.ct0 ∧ t.ct1 = State.reset.ct1 ∧
    t.lzw = State.reset.lzw ∧ t.bp = State.reset.bp

/-- SYS_STATUS (44 R232): no write, and the response's fields are the LZW and packer control state. -/
def Obligations.SysStatusFields : Prop :=
  EncodedZ 0x02#8 .sysStatus ∧ Reads .sysStatus State.reset 0x00008C ∧
  ∀ s : State, s.fault = none → s.Inv →
    ∃ t r, exec .sysStatus s = .next t ∧ t.fault = none ∧ SameBlock s t ∧ Answers s t r ∧
      (r.extractLsb' 0 2).toNat = s.lzw.phase.code ∧ (r.extractLsb' 2 4).toNat = s.lzw.w ∧
      (r.extractLsb' 6 4).toNat = s.lzw.m ∧ (r.extractLsb' 10 3).toNat = s.lzw.sf ∧
      (r.extractLsb' 13 1).toNat = bankNumber s.lzw.bank ∧ (r.extractLsb' 14 3).toNat = s.bp.nbits ∧
      (r.extractLsb' 17 15).toNat = 0

/-- LZW_NEXT (44 R233): in every phase it answers `next`, which is in `2^m + 2 .. 4096`; the dictionary holds
`next - (2^m + 2)` entries. -/
def Obligations.LzwNextReadsNext : Prop :=
  EncodedZ 0x44#8 .lzwNext ∧ Reads .lzwNext State.reset 6 ∧
  ∀ s : State, s.fault = none → s.Inv →
    Reads .lzwNext s s.lzw.next ∧ 2 ^ s.lzw.m + 2 ≤ s.lzw.next ∧ s.lzw.next ≤ 4096 ∧
      s.lzw.dict.length = s.lzw.next - (2 ^ s.lzw.m + 2)

/-! ### Packed bit fields -/

/-- PACK_TCF (40 R112). -/
def Obligations.PackTcfPacksFields : Prop :=
  (∀ f0 f1 f2 f3 : BitVec 4, decode (0x10#8 ++ 0#8 ++ f0 ++ f1 ++ f2 ++ f3) =
    .ok (.packTcf f0.toNat f1.toNat f2.toNat f3.toNat)) ∧
  (∀ arg : BitVec 24, arg.extractLsb' 16 8 ≠ 0#8 → ∃ e, decode (0x10#8 ++ arg) = .error e) ∧
  ∀ (s : State) (hasTable colorResolution sort size : Nat), s.fault = none →
    (hasTable < 2 ∧ colorResolution < 8 ∧ sort < 2 ∧ size < 8 →
      Reads (.packTcf hasTable colorResolution sort size) s
        (hasTable * 128 + colorResolution * 16 + sort * 8 + size)) ∧
    (¬ (hasTable < 2 ∧ colorResolution < 8 ∧ sort < 2 ∧ size < 8) →
      EndsFaulted (.packTcf hasTable colorResolution sort size) s .fieldOverflow)

/-- PACK_ICF (40 R113): the reserved sub-field is 0. -/
def Obligations.PackIcfPacksFields : Prop :=
  (∀ f0 f1 f2 f3 : BitVec 4, decode (0x11#8 ++ 0#8 ++ f0 ++ f1 ++ f2 ++ f3) =
    .ok (.packIcf f0.toNat f1.toNat f2.toNat f3.toNat)) ∧
  (∀ arg : BitVec 24, arg.extractLsb' 16 8 ≠ 0#8 → ∃ e, decode (0x11#8 ++ arg) = .error e) ∧
  ∀ (s : State) (hasTable interlace sort size : Nat), s.fault = none →
    (hasTable < 2 ∧ interlace < 2 ∧ sort < 2 ∧ size < 8 →
      Reads (.packIcf hasTable interlace sort size) s (hasTable * 128 + interlace * 64 + sort * 32 + size)) ∧
    (¬ (hasTable < 2 ∧ interlace < 2 ∧ sort < 2 ∧ size < 8) →
      EndsFaulted (.packIcf hasTable interlace sort size) s .fieldOverflow)

/-- PACK_GCF (40 R114): FieldOverflow first, then BadDisposal. -/
def Obligations.PackGcfPacksFields : Prop :=
  (∀ f1 f2 f3 : BitVec 4, decode (0x12#8 ++ 0#12 ++ f1 ++ f2 ++ f3) = .ok (.packGcf f1.toNat f2.toNat f3.toNat)) ∧
  (∀ arg : BitVec 24, arg.extractLsb' 12 12 ≠ 0#12 → ∃ e, decode (0x12#8 ++ arg) = .error e) ∧
  ∀ (s : State) (disposal waitForInput hasTransparency : Nat), s.fault = none →
    (¬ (disposal < 8 ∧ waitForInput < 2 ∧ hasTransparency < 2) →
      EndsFaulted (.packGcf disposal waitForInput hasTransparency) s .fieldOverflow) ∧
    (disposal < 8 ∧ waitForInput < 2 ∧ hasTransparency < 2 → 3 < disposal →
      EndsFaulted (.packGcf disposal waitForInput hasTransparency) s .badDisposal) ∧
    (disposal ≤ 3 ∧ waitForInput < 2 ∧ hasTransparency < 2 →
      Reads (.packGcf disposal waitForInput hasTransparency) s (disposal * 4 + waitForInput * 2 + hasTransparency))

/-- 40 R116: each sub-field can be read back from the packed byte at the bit positions of 30_encoding R90, and exactly the
bytes with zero reserved bits (and a disposal of at most 3) are results: 256, 64 and 16 of them. -/
def Obligations.PackedFieldsReadBack : Prop :=
  (∀ h r o z : Nat, h < 2 → r < 8 → o < 2 → z < 8 →
    bitsOf (packFields (tcfFields h r o z)) 7 7 = h ∧ bitsOf (packFields (tcfFields h r o z)) 6 4 = r ∧
    bitsOf (packFields (tcfFields h r o z)) 3 3 = o ∧ bitsOf (packFields (tcfFields h r o z)) 2 0 = z) ∧
  (∀ h i o z : Nat, h < 2 → i < 2 → o < 2 → z < 8 →
    bitsOf (packFields (icfFields h i o z)) 7 7 = h ∧ bitsOf (packFields (icfFields h i o z)) 6 6 = i ∧
    bitsOf (packFields (icfFields h i o z)) 5 5 = o ∧ bitsOf (packFields (icfFields h i o z)) 4 3 = 0 ∧
    bitsOf (packFields (icfFields h i o z)) 2 0 = z) ∧
  (∀ d w t : Nat, d < 8 → w < 2 → t < 2 →
    bitsOf (packFields (gcfFields d w t)) 7 5 = 0 ∧ bitsOf (packFields (gcfFields d w t)) 4 2 = d ∧
    bitsOf (packFields (gcfFields d w t)) 1 1 = w ∧ bitsOf (packFields (gcfFields d w t)) 0 0 = t) ∧
  (∀ v, v < 256 ↔ ∃ h r o z, h < 2 ∧ r < 8 ∧ o < 2 ∧ z < 8 ∧ packFields (tcfFields h r o z) = v) ∧
  (∀ v, v < 256 ∧ bitsOf v 4 3 = 0 ↔ ∃ h i o z, h < 2 ∧ i < 2 ∧ o < 2 ∧ z < 8 ∧ packFields (icfFields h i o z) = v) ∧
  ((List.range 256).filter fun v => bitsOf v 4 3 = 0).length = 64 ∧
  (∀ v, v < 16 ↔ ∃ d w t, d ≤ 3 ∧ w < 2 ∧ t < 2 ∧ packFields (gcfFields d w t) = v)

/-! ### Colour tables -/

/-- 10_state R26 to R29: the declared length is a power of two in [2, 256] and at least `n`; the size field is its
logarithm less 1, 0..7; the byte length is three times it, 6..768; with the reserve flag the transparent index is no
explicit colour's. -/
def Obligations.DerivedSizesAreInRange : Prop :=
  ∀ b : Bank, b.Inv →
    b.sizeField ≤ 7 ∧ b.declaredLength = 2 ^ (b.sizeField + 1) ∧ b.n ≤ b.declaredLength ∧
    b.byteLength = 3 * b.declaredLength ∧ 6 ≤ b.byteLength ∧ b.byteLength ≤ 768 ∧
    b.transparentIndex = b.declaredLength - 1 ∧ (b.rsv = true → b.n ≤ b.transparentIndex)

/-- 41 R131: the table of `dl` for every reachable `(n, rsv)`. -/
def Obligations.DeclaredLengthTable : Prop :=
  (∀ n, n ≤ 256 → declaredLength n false =
    if n ≤ 2 then 2 else if n ≤ 4 then 4 else if n ≤ 8 then 8 else if n ≤ 16 then 16 else if n ≤ 32 then 32
    else if n ≤ 64 then 64 else if n ≤ 128 then 128 else 256) ∧
  (∀ n, n ≤ 255 → declaredLength n true =
    if n ≤ 1 then 2 else if n ≤ 3 then 4 else if n ≤ 7 then 8 else if n ≤ 15 then 16 else if n ≤ 31 then 32
    else if n ≤ 63 then 64 else if n ≤ 127 then 128 else 256)

/-- CT_NEW (41 R130): sealed or not, in every phase. -/
def Obligations.CtNewEmptiesBank : Prop :=
  EncodedZ 0x20#8 (.ctNew .bank0) ∧ EncodedZ 0x30#8 (.ctNew .bank1) ∧
  ∀ (s : State) (u : BankId), s.fault = none →
    ∃ t, Succeeds (.ctNew u) s t 0 ∧ OnlyBankChanges u s t ∧ (t.bank u).n = 0 ∧ (t.bank u).colors = [] ∧
      (t.bank u).rsv = false ∧ (t.bank u).sealed = false ∧ (t.bank u).declaredLength = 2

/-- CT_INSERT (41 R132): TableSealed, then DuplicateColor, then TableFull, else the next index. -/
def Obligations.CtInsertAssignsNextIndex : Prop :=
  (∀ c : Color, decode (0x21#8 ++ c) = .ok (.ctInsert .bank0 c) ∧ decode (0x31#8 ++ c) = .ok (.ctInsert .bank1 c)) ∧
  ∀ (s : State) (u : BankId) (c : Color), s.fault = none →
    ((s.bank u).sealed = true → EndsFaulted (.ctInsert u c) s .tableSealed) ∧
    ((s.bank u).sealed = false → c ∈ (s.bank u).colors → EndsFaulted (.ctInsert u c) s .duplicateColor) ∧
    ((s.bank u).sealed = false → c ∉ (s.bank u).colors → 256 - (s.bank u).rsv.toNat ≤ (s.bank u).n →
      EndsFaulted (.ctInsert u c) s .tableFull) ∧
    ((s.bank u).sealed = false → c ∉ (s.bank u).colors → (s.bank u).n < 256 - (s.bank u).rsv.toNat →
      ∃ t, Succeeds (.ctInsert u c) s t (s.bank u).n ∧ OnlyBankChanges u s t ∧
        (t.bank u).colors = (s.bank u).colors ++ [c] ∧ (t.bank u).n = (s.bank u).n + 1 ∧
        (t.bank u).rsv = (s.bank u).rsv ∧ (t.bank u).sealed = false)

/-- CT_LOOKUP (41 R135): the unique index of the colour, or NotFound; nothing is written. -/
def Obligations.CtLookupFindsIndex : Prop :=
  (∀ c : Color, decode (0x22#8 ++ c) = .ok (.ctLookup .bank0 c) ∧ decode (0x32#8 ++ c) = .ok (.ctLookup .bank1 c)) ∧
  ∀ (s : State) (u : BankId) (c : Color), s.fault = none → (s.bank u).Inv →
    (∀ i, (s.bank u).colors[i]? = some c → Reads (.ctLookup u c) s i) ∧
    (c ∉ (s.bank u).colors → EndsFaulted (.ctLookup u c) s .notFound)

/-- CT_COLOR_AT (41 R136): the stored colour, black padding, or IndexOutOfRange. -/
def Obligations.CtColorAtReadsColour : Prop :=
  (∀ i : BitVec 16, decode (0x23#8 ++ 0#8 ++ i) = .ok (.ctColorAt .bank0 i.toNat) ∧
    decode (0x33#8 ++ 0#8 ++ i) = .ok (.ctColorAt .bank1 i.toNat)) ∧
  (∀ arg : BitVec 24, arg.extractLsb' 16 8 ≠ 0#8 →
    (∃ e, decode (0x23#8 ++ arg) = .error e) ∧ ∃ e, decode (0x33#8 ++ arg) = .error e) ∧
  ∀ (s : State) (u : BankId) (i : Nat), s.fault = none →
    (∀ c, (s.bank u).colors[i]? = some c → Reads (.ctColorAt u i) s c.toNat) ∧
    ((s.bank u).n ≤ i → i < (s.bank u).declaredLength → Reads (.ctColorAt u i) s 0) ∧
    ((s.bank u).declaredLength ≤ i → EndsFaulted (.ctColorAt u i) s .indexOutOfRange)

/-- CT_RESERVE (41 R137): no check and no write when the flag is set already. -/
def Obligations.CtReserveSetsFlag : Prop :=
  EncodedZ 0x24#8 (.ctReserve .bank0) ∧ EncodedZ 0x34#8 (.ctReserve .bank1) ∧
  ∀ (s : State) (u : BankId), s.fault = none →
    ((s.bank u).rsv = true → Reads (.ctReserve u) s 0) ∧
    ((s.bank u).rsv = false → (s.bank u).sealed = true → EndsFaulted (.ctReserve u) s .tableSealed) ∧
    ((s.bank u).rsv = false → (s.bank u).sealed = false → 256 ≤ (s.bank u).n →
      EndsFaulted (.ctReserve u) s .tableFull) ∧
    ((s.bank u).rsv = false → (s.bank u).sealed = false → (s.bank u).n ≤ 255 →
      ∃ t, Succeeds (.ctReserve u) s t 0 ∧ OnlyBankChanges u s t ∧ (t.bank u).colors = (s.bank u).colors ∧
        (t.bank u).rsv = true ∧ (t.bank u).sealed = false)

/-- CT_TRANSP (41 R138): the checks of CT_RESERVE; the flag is set first, then the value is `dl(n, 1) - 1`, which is no
explicit colour's index. -/
def Obligations.CtTranspReservesAndReads : Prop :=
  EncodedZ 0x25#8 (.ctTransp .bank0) ∧ EncodedZ 0x35#8 (.ctTransp .bank1) ∧
  ∀ (s : State) (u : BankId), s.fault = none →
    ((s.bank u).rsv = true → (s.bank u).n ≤ 255 → Reads (.ctTransp u) s (declaredLength (s.bank u).n true - 1)) ∧
    ((s.bank u).rsv = false → (s.bank u).sealed = true → EndsFaulted (.ctTransp u) s .tableSealed) ∧
    ((s.bank u).rsv = false → (s.bank u).sealed = false → 256 ≤ (s.bank u).n →
      EndsFaulted (.ctTransp u) s .tableFull) ∧
    ((s.bank u).rsv = false → (s.bank u).sealed = false → (s.bank u).n ≤ 255 →
      ∃ t, Succeeds (.ctTransp u) s t (declaredLength (s.bank u).n true - 1) ∧ OnlyBankChanges u s t ∧
        (t.bank u).colors = (s.bank u).colors ∧ (t.bank u).rsv = true ∧ (t.bank u).sealed = false ∧
        (t.bank u).n ≤ declaredLength (s.bank u).n true - 1)

/-- CT_SIZE, CT_DECLEN, CT_BYTELEN, CT_ULEN (41 R139 to R142): the size field is the exponent of the declared length less
1; nothing is written. -/
def Obligations.CtSizeReads : Prop :=
  EncodedZ 0x26#8 (.ctSize .bank0) ∧ EncodedZ 0x36#8 (.ctSize .bank1) ∧
  EncodedZ 0x27#8 (.ctDeclen .bank0) ∧ EncodedZ 0x37#8 (.ctDeclen .bank1) ∧
  EncodedZ 0x28#8 (.ctBytelen .bank0) ∧ EncodedZ 0x38#8 (.ctBytelen .bank1) ∧
  EncodedZ 0x29#8 (.ctUlen .bank0) ∧ EncodedZ 0x39#8 (.ctUlen .bank1) ∧
  ∀ (s : State) (u : BankId), s.fault = none → (s.bank u).Inv →
    (∃ sf, sf ≤ 7 ∧ declaredLength (s.bank u).n (s.bank u).rsv = 2 ^ (sf + 1) ∧ Reads (.ctSize u) s sf) ∧
    Reads (.ctDeclen u) s (declaredLength (s.bank u).n (s.bank u).rsv) ∧
    Reads (.ctBytelen u) s (3 * declaredLength (s.bank u).n (s.bank u).rsv) ∧
    Reads (.ctUlen u) s (s.bank u).n

/-- CT_SERIALIZE (41 R143): the explicit colours in insertion order, then black up to `dl`, three bytes each, red first;
the bank is sealed; the response is the byte count. -/
def Obligations.CtSerializeEmitsTable : Prop :=
  EncodedZ 0x2A#8 (.ctSerialize .bank0) ∧ EncodedZ 0x3A#8 (.ctSerialize .bank1) ∧
  ∀ (s : State) (u : BankId), s.fault = none →
    (s.lzw.phase ≠ .idle → EndsFaulted (.ctSerialize u) s .badPhase) ∧
    (s.lzw.phase = .idle → (s.bank u).Inv →
      ∃ t, Succeeds (.ctSerialize u) s t (3 * (s.bank u).declaredLength) ∧
        t.out = s.out ++
          ((s.bank u).colors ++ List.replicate ((s.bank u).declaredLength - (s.bank u).n) 0#24).flatMap
            (fun c => [c.extractLsb' 16 8, c.extractLsb' 8 8, c.extractLsb' 0 8]) ∧
        (t.bank u).sealed = true ∧ (t.bank u).colors = (s.bank u).colors ∧ (t.bank u).rsv = (s.bank u).rsv ∧
        (∀ v, v ≠ u → t.bank v = s.bank v) ∧ SameStream s t)

/-- 41 R145: `n` distinct colours loaded into a bank are serialised in that order and then `3 (dl - n)` zero bytes, and
CT_COLOR_AT reads them back, then black. -/
def Obligations.LoadedColoursRoundTrip : Prop :=
  ∀ (s : State) (u : BankId) (cs : List Color), s.fault = none → s.lzw.phase = .idle → cs.Nodup → cs.length ≤ 256 →
    (∃ t, execAll (ctLoad u cs ++ [.ctSerialize u]) s = .next t ∧ t.fault = none ∧
      t.out = s.out ++ cs.flatMap (fun c => [c.extractLsb' 16 8, c.extractLsb' 8 8, c.extractLsb' 0 8]) ++
        List.replicate (3 * (declaredLength cs.length false - cs.length)) 0#8) ∧
    (∃ t, execAll (ctLoad u cs) s = .next t ∧ t.fault = none ∧
      (∀ i c, cs[i]? = some c → Reads (.ctColorAt u i) t c.toNat) ∧
      (∀ i, cs.length ≤ i → i < declaredLength cs.length false → Reads (.ctColorAt u i) t 0))

/-! ### The bit packer -/

/-- BP_PUSH (43 R211, R213): BadPhase, then BadWidth, then CodeTooWide; else the code's bits land above the pending bits
and every whole byte leaves, lowest first. -/
def Obligations.BpPushAppendsCode : Prop :=
  (∀ (width : BitVec 4) (v : BitVec 12), decode (0x50#8 ++ 0#8 ++ width ++ v) = .ok (.bpPush v.toNat width.toNat)) ∧
  (∀ arg : BitVec 24, arg.extractLsb' 16 8 ≠ 0#8 → ∃ e, decode (0x50#8 ++ arg) = .error e) ∧
  ∀ (s : State) (v width : Nat), s.fault = none →
    (s.lzw.phase ≠ .idle → EndsFaulted (.bpPush v width) s .badPhase) ∧
    (s.lzw.phase = .idle → ¬ (2 ≤ width ∧ width ≤ 12) → EndsFaulted (.bpPush v width) s .badWidth) ∧
    (s.lzw.phase = .idle → 2 ≤ width → width ≤ 12 → 2 ^ width ≤ v → EndsFaulted (.bpPush v width) s .codeTooWide) ∧
    (s.lzw.phase = .idle → 2 ≤ width → width ≤ 12 → v < 2 ^ width → s.bp.Inv →
      ∃ t bs, Succeeds (.bpPush v width) s t 0 ∧ t.out = s.out ++ bs ∧ bs.length ≤ 2 ∧ SameTables s t ∧
        t.lzw = s.lzw ∧ t.bp.Inv ∧ 8 * bs.length + t.bp.nbits = s.bp.nbits + width ∧
        codesValue (bs.map fun b => (b.toNat, 8)) + t.bp.acc * 2 ^ (8 * bs.length) = s.bp.acc + v * 2 ^ s.bp.nbits)

/-- BP_FLUSH (43 R212, R214): BadPhase, else the pending bits leave as one zero-padded byte, and nothing leaves when none
are pending. -/
def Obligations.BpFlushPadsToByte : Prop :=
  EncodedZ 0x51#8 .bpFlush ∧
  ∀ s : State, s.fault = none →
    (s.lzw.phase ≠ .idle → EndsFaulted .bpFlush s .badPhase) ∧
    (s.lzw.phase = .idle → s.bp.Inv →
      ∃ t bs, Succeeds .bpFlush s t 0 ∧ t.out = s.out ++ bs ∧ SameTables s t ∧ t.lzw = s.lzw ∧ t.bp.nbits = 0 ∧
        t.bp.acc = 0 ∧ (s.bp.nbits = 0 → bs = []) ∧
        (0 < s.bp.nbits → ∃ b : Byte, bs = [b] ∧ b.toNat = s.bp.acc))

/-- 43 R215: from an empty packer the pushes of a list of codes and a flush append exactly `pack_lsb` of the list. -/
def Obligations.PushesThenFlushArePackLsb : Prop :=
  ∀ (s : State) (codes : List (Nat × Nat)), s.bp.nbits = 0 → s.bp.acc = 0 → (∀ c ∈ codes, c.1 < 2 ^ c.2) →
    (s.pushAll codes).bpFlush.out = s.out ++ packLsb codes

/-! ### The compressor -/

/-- LZW_START (42_lzw R173). `bp` and `out` are those of a fresh packer after the clear code `2^m` at `m + 1` bits. -/
def Obligations.LzwStartOpensStream : Prop :=
  decode 0x40000000 = .ok (.lzwStart .bank0) ∧ decode 0x40000001 = .ok (.lzwStart .bank1) ∧
  (∀ arg : BitVec 24, arg.extractLsb' 1 23 ≠ 0#23 → ∃ e, decode (0x40#8 ++ arg) = .error e) ∧
  ∀ (s : State) (u : BankId), s.fault = none →
    (s.lzw.phase ≠ .idle → EndsFaulted (.lzwStart u) s .badPhase) ∧
    (s.lzw.phase = .idle → (s.bank u).Inv →
      ∃ t m, m = max 2 (1 + (s.bank u).sizeField) ∧ Succeeds (.lzwStart u) s t m ∧ SameTables s t ∧
        t.lzw = { phase := .first, sf := (s.bank u).sizeField, bank := u, m := m, w := m + 1, next := 2 ^ m + 2,
                  dict := [], buf := [] } ∧
        (m ≤ 6 → t.out = s.out ∧ t.bp = { nbits := m + 1, acc := 2 ^ m }) ∧
        (m = 7 → t.out = s.out ++ [0x80#8] ∧ t.bp = { nbits := 0, acc := 0 }) ∧
        (m = 8 → t.out = s.out ++ [0x00#8] ∧ t.bp = { nbits := 1, acc := 1 }) ∧ m ≤ 8)

/-- 10_state R40: LZW_START rewrites the LZW unit and the packer from the named bank alone, and the bytes it emits too;
nothing of an earlier stream survives. -/
def Obligations.LzwStartForgetsEarlierStream : Prop :=
  ∀ (s s' : State) (u : BankId), s.fault = none → s'.fault = none → s.lzw.phase = .idle → s'.lzw.phase = .idle →
    s.bank u = s'.bank u →
    ∃ t t' bs, exec (.lzwStart u) s = .next t ∧ exec (.lzwStart u) s' = .next t' ∧ SameStream t t' ∧
      t.out = s.out ++ bs ∧ t'.out = s'.out ++ bs

/-- LZW_SYM (42_lzw R174, R175, R177): BadPhase, then IndexOutOfRange; the first index starts the buffer; a known
extension lengthens it; otherwise the buffer's code leaves at the old width, and then the extension gets the next code and
the width may grow, or, with all 4096 codes used, a clear code leaves at 12 bits and the dictionary is emptied. -/
def Obligations.LzwSymTakesOneIndex : Prop :=
  (∀ k : BitVec 16, decode (0x41#8 ++ 0#8 ++ k) = .ok (.lzwSym k.toNat)) ∧
  (∀ arg : BitVec 24, arg.extractLsb' 16 8 ≠ 0#8 → ∃ e, decode (0x41#8 ++ arg) = .error e) ∧
  ∀ (s : State) (k : Nat), s.fault = none →
    (s.lzw.phase = .idle → EndsFaulted (.lzwSym k) s .badPhase) ∧
    (s.lzw.phase ≠ .idle → 2 ^ (s.lzw.sf + 1) ≤ k → EndsFaulted (.lzwSym k) s .indexOutOfRange) ∧
    (s.lzw.phase = .first → k < 2 ^ (s.lzw.sf + 1) →
      ∃ t, Succeeds (.lzwSym k) s t 0 ∧ t.out = s.out ∧ SameTables s t ∧ t.bp = s.bp ∧
        t.lzw = { s.lzw with buf := [k], phase := .run }) ∧
    (s.lzw.phase = .run → k < 2 ^ (s.lzw.sf + 1) → s.lzw.known (s.lzw.buf ++ [k]) = true →
      ∃ t, Succeeds (.lzwSym k) s t 0 ∧ t.out = s.out ∧ SameTables s t ∧ t.bp = s.bp ∧
        t.lzw = { s.lzw with buf := s.lzw.buf ++ [k] }) ∧
    (∀ c, s.lzw.phase = .run → k < 2 ^ (s.lzw.sf + 1) → s.lzw.known (s.lzw.buf ++ [k]) = false →
      s.lzw.codeOf s.lzw.buf = some c → s.lzw.next ≠ 4096 →
      ∃ t, Succeeds (.lzwSym k) s t 0 ∧ SameTables s t ∧ t.out = (s.bpPush c s.lzw.w).out ∧
        t.bp = (s.bpPush c s.lzw.w).bp ∧
        t.lzw = { s.lzw with
          dict := s.lzw.dict ++ [(s.lzw.buf ++ [k], s.lzw.next)], next := s.lzw.next + 1,
          w := if s.lzw.next = 2 ^ s.lzw.w then s.lzw.w + 1 else s.lzw.w, buf := [k] }) ∧
    (∀ c, s.lzw.phase = .run → k < 2 ^ (s.lzw.sf + 1) → s.lzw.known (s.lzw.buf ++ [k]) = false →
      s.lzw.codeOf s.lzw.buf = some c → s.lzw.next = 4096 →
      ∃ t, Succeeds (.lzwSym k) s t 0 ∧ SameTables s t ∧
        t.out = ((s.bpPush c s.lzw.w).bpPush (2 ^ s.lzw.m) 12).out ∧
        t.bp = ((s.bpPush c s.lzw.w).bpPush (2 ^ s.lzw.m) 12).bp ∧
        t.lzw = { s.lzw with dict := [], next := 2 ^ s.lzw.m + 2, w := s.lzw.m + 1, buf := [k] })

/-- LZW_PIX (42_lzw R178): BadPhase, then NotFound, then IndexOutOfRange; else exactly LZW_SYM of the colour's index in
the stream's bank, responding the index. -/
def Obligations.LzwPixIsLookupThenSym : Prop :=
  (∀ c : Color, decode (0x42#8 ++ c) = .ok (.lzwPix c)) ∧
  ∀ (s : State) (c : Color), s.fault = none →
    (s.lzw.phase = .idle → EndsFaulted (.lzwPix c) s .badPhase) ∧
    (s.lzw.phase ≠ .idle → c ∉ (s.bank s.lzw.bank).colors → EndsFaulted (.lzwPix c) s .notFound) ∧
    (∀ i, s.lzw.phase ≠ .idle → s.Inv → (s.bank s.lzw.bank).colors[i]? = some c → 2 ^ (s.lzw.sf + 1) ≤ i →
      EndsFaulted (.lzwPix c) s .indexOutOfRange) ∧
    (∀ i, s.lzw.phase ≠ .idle → s.Inv → (s.bank s.lzw.bank).colors[i]? = some c → i < 2 ^ (s.lzw.sf + 1) →
      ∃ t t', Succeeds (.lzwPix c) s t i ∧ Succeeds (.lzwSym i) s t' 0 ∧ SameBlock t' t)

/-- LZW_END (42_lzw R179): BadPhase in IDLE, EmptyInput in FIRST; in RUN the final buffer's code and the end code leave at
the same width above the pending bits, zero-padded to a byte; the code table keeps its values. -/
def Obligations.LzwEndClosesStream : Prop :=
  EncodedZ 0x43#8 .lzwEnd ∧
  ∀ s : State, s.fault = none →
    (s.lzw.phase = .idle → EndsFaulted .lzwEnd s .badPhase) ∧
    (s.lzw.phase = .first → EndsFaulted .lzwEnd s .emptyInput) ∧
    (∀ c, s.lzw.phase = .run → s.lzw.codeOf s.lzw.buf = some c →
      ∃ t, Succeeds .lzwEnd s t 0 ∧ SameTables s t ∧ t.bp = { nbits := 0, acc := 0 } ∧
        t.lzw = { s.lzw with buf := [], phase := .idle } ∧
        t.out = s.out ++ lowBytes ((s.bp.nbits + s.lzw.w + s.lzw.w + 7) / 8)
          (s.bp.acc + c * 2 ^ s.bp.nbits + (2 ^ s.lzw.m + 1) * 2 ^ (s.bp.nbits + s.lzw.w)))

/-- The phase machine (42_lzw R180). -/
def Obligations.PhaseMachine : Prop :=
  (∀ (i : Instr) (s t : State), s.fault = none → exec i s = .next t → t.fault = none →
    (∀ u, i = .lzwStart u → s.lzw.phase = .idle ∧ t.lzw.phase = .first) ∧
    (∀ k, i = .lzwSym k → s.lzw.phase ≠ .idle ∧ (s.lzw.phase = .first → t.lzw.phase = .run) ∧
      (s.lzw.phase = .run → t.lzw.phase = .run)) ∧
    (∀ c, i = .lzwPix c → s.lzw.phase ≠ .idle ∧ (s.lzw.phase = .first → t.lzw.phase = .run) ∧
      (s.lzw.phase = .run → t.lzw.phase = .run)) ∧
    (i = .lzwEnd → s.lzw.phase = .run ∧ t.lzw.phase = .idle) ∧
    (i = .sysReset → t.lzw.phase = .idle) ∧
    ((∃ v w, i = .bpPush v w) ∨ i = .bpFlush ∨ (∃ u, i = .ctSerialize u) → s.lzw.phase = .idle) ∧
    ((∀ u, i ≠ .lzwStart u) → (∀ k, i ≠ .lzwSym k) → (∀ c, i ≠ .lzwPix c) → i ≠ .lzwEnd → i ≠ .sysReset →
      t.lzw.phase = s.lzw.phase)) ∧
  ∀ s : State, s.fault = none →
    (s.lzw.phase = .idle → (∀ k, EndsFaulted (.lzwSym k) s .badPhase) ∧ (∀ c, EndsFaulted (.lzwPix c) s .badPhase) ∧
      EndsFaulted .lzwEnd s .badPhase) ∧
    (s.lzw.phase = .first → EndsFaulted .lzwEnd s .emptyInput) ∧
    (s.lzw.phase ≠ .idle → (∀ u, EndsFaulted (.lzwStart u) s .badPhase) ∧
      (∀ v w, EndsFaulted (.bpPush v w) s .badPhase) ∧ EndsFaulted .bpFlush s .badPhase ∧
      ∀ u, EndsFaulted (.ctSerialize u) s .badPhase)

/-- 42_lzw R181: the bytes that a stream appends are `pack_lsb(compress(sf, ks))`, for every non-empty sequence of legal
indices. -/
def Obligations.StreamIsPackedCompress : Prop :=
  ∀ (s : State) (u : BankId) (ks : List Nat), s.fault = none → s.lzw.phase = .idle → (s.bank u).Inv → ks ≠ [] →
    (∀ k ∈ ks, k < 2 ^ ((s.bank u).sizeField + 1)) →
    ∃ t codes, compress (s.bank u).sizeField ks = some codes ∧ execAll (lzwRun u ks) s = .next t ∧ t.fault = none ∧
      t.out = s.out ++ packLsb codes ∧ t.lzw.phase = .idle

/-- 10_state R39: the register form of the code table emits the same codes as the sequence form, for every non-empty
sequence of legal indices. -/
def Obligations.RegisterFormEmitsSameCodes : Prop :=
  ∀ (sf : Nat) (ks : List Nat), sf ≤ 7 → ks ≠ [] → (∀ k ∈ ks, k < 2 ^ (sf + 1)) →
    ∃ codes, compress sf ks = some codes ∧ compressRegisters sf ks = some codes

/-! ### Frames over all commands -/

/-- 10_state R23, 20_memory R73: only the emitting commands write `out`, they only append, and only SYS_RESET empties
it. -/
def Obligations.OutputOnlyGrows : Prop :=
  ∀ (i : Instr) (s t : State), exec i s = .next t →
    (i = .sysReset → t.out = []) ∧ (i ≠ .sysReset → s.out <+: t.out) ∧
    (i ≠ .sysReset → (∀ u, i ≠ .ctSerialize u) → ¬ writesStream i → t.out = s.out)

/-- 20_memory R69: how many bytes each command emits. -/
def Obligations.BytesPerCommand : Prop :=
  ∀ (i : Instr) (s t : State), s.Inv → s.fault = none → exec i s = .next t → t.fault = none → i ≠ .sysReset →
    ∃ bs, t.out = s.out ++ bs ∧ bs.length ≤ 768 ∧
      (∀ u, i = .ctSerialize u → bs.length = 3 * (s.bank u).declaredLength) ∧
      (∀ u, i = .lzwStart u → bs.length ≤ 1) ∧
      (∀ k, i = .lzwSym k → bs.length ≤ 3) ∧ (∀ c, i = .lzwPix c → bs.length ≤ 3) ∧
      (i = .lzwEnd → 1 ≤ bs.length ∧ bs.length ≤ 4) ∧
      (∀ v w, i = .bpPush v w → bs.length ≤ 2) ∧ (i = .bpFlush → bs.length ≤ 1)

/-- Only CT_NEW, CT_INSERT, CT_RESERVE, CT_TRANSP and CT_SERIALIZE of a bank, and SYS_RESET, write that bank
(10_state R24; 41_color_table, opening paragraph). -/
def Obligations.OnlyBankCommandsWriteBank : Prop :=
  ∀ (i : Instr) (s t : State) (u : BankId), exec i s = .next t → ¬ writesBank i u → i ≠ .sysReset →
    t.bank u = s.bank u

/-- Only the LZW stream commands and SYS_RESET write the LZW unit, and only those and the BP commands write the packer
(10_state R30 to R37, R41, R42). -/
def Obligations.OnlyStreamCommandsWriteStream : Prop :=
  ∀ (i : Instr) (s t : State), exec i s = .next t → i ≠ .sysReset →
    (¬ writesStream i → SameStream s t) ∧
    ((∃ v w, i = .bpPush v w) ∨ i = .bpFlush → t.lzw = s.lzw)

/-- 70_reset_and_hazards R287, 10_state R31, R32: whatever happens to the bank of an open stream, its size field, code size
and bank stay as LZW_START latched them: only LZW_START and SYS_RESET write them. -/
def Obligations.StreamParametersAreLatched : Prop :=
  ∀ (i : Instr) (s t : State), exec i s = .next t → i ≠ .sysReset → (∀ u, i ≠ .lzwStart u) →
    t.lzw.sf = s.lzw.sf ∧ t.lzw.m = s.lzw.m ∧ t.lzw.bank = s.lzw.bank

/-- 20_memory R71: the read commands and the PACK commands change no state when they do not fault, and repeated they give
the same response. -/
def Obligations.ReadsChangeNothing : Prop :=
  ∀ (i : Instr) (s t : State),
    (∃ u c, i = .ctLookup u c) ∨ (∃ u k, i = .ctColorAt u k) ∨ (∃ u, i = .ctSize u) ∨ (∃ u, i = .ctDeclen u) ∨
      (∃ u, i = .ctBytelen u) ∨ (∃ u, i = .ctUlen u) ∨ i = .sysStatus ∨ i = .lzwNext ∨
      (∃ x y z w, i = .packTcf x y z w) ∨ (∃ x y z w, i = .packIcf x y z w) ∨ (∃ x y z, i = .packGcf x y z) →
    exec i s = .next t → t.fault = none →
    SameBlock s t ∧ ∃ t' r, exec i t = .next t' ∧ SameBlock s t' ∧ Answers s t r ∧ Answers t t' r

/-! ### The host's reference functions -/

/-- 44 R240: sub-block chunking takes runs of at most 255 bytes behind their length byte, full runs first, and a zero
byte ends it; the length is `P + ceil(P / 255) + 1`. -/
def Obligations.SubblocksSplitGreedily : Prop :=
  subblocks [] = [0#8] ∧
  (∀ p : List Byte, p ≠ [] →
    subblocks p = BitVec.ofNat 8 (min 255 p.length) :: p.take 255 ++ subblocks (p.drop 255)) ∧
  ∀ p : List Byte, (subblocks p).length = p.length + (p.length + 254) / 255 + 1
end

