-- ==== Sys2Proof/Laws/State.lean ====
section
/-! SUPPORT. One lemma per field per state update, so that no later proof unfolds a record update. -/

namespace Sys2Proof.Machine

section Answer
variable (s : State) (v : Nat)

@[simp] theorem answer_fault : (s.answer v).fault = s.fault := rfl
@[simp] theorem answer_out : (s.answer v).out = s.out := rfl
@[simp] theorem answer_ct0 : (s.answer v).ct0 = s.ct0 := rfl
@[simp] theorem answer_ct1 : (s.answer v).ct1 = s.ct1 := rfl
@[simp] theorem answer_lzw : (s.answer v).lzw = s.lzw := rfl
@[simp] theorem answer_bp : (s.answer v).bp = s.bp := rfl
@[simp] theorem answer_commands : (s.answer v).port.commands = s.port.commands.tail := rfl
@[simp] theorem answer_responses :
    (s.answer v).port.responses = s.port.responses ++ [responseWord s.fault v] := rfl
@[simp] theorem answer_bank (t : BankId) : (s.answer v).bank t = s.bank t := by cases t <;> rfl

end Answer

section IssueNext
variable (s : State) (cmd : Word)

@[simp] theorem issueNext_fault : (s.issueNext cmd).fault = s.fault := rfl
@[simp] theorem issueNext_out : (s.issueNext cmd).out = s.out := rfl
@[simp] theorem issueNext_ct0 : (s.issueNext cmd).ct0 = s.ct0 := rfl
@[simp] theorem issueNext_ct1 : (s.issueNext cmd).ct1 = s.ct1 := rfl
@[simp] theorem issueNext_lzw : (s.issueNext cmd).lzw = s.lzw := rfl
@[simp] theorem issueNext_bp : (s.issueNext cmd).bp = s.bp := rfl
@[simp] theorem issueNext_commands : (s.issueNext cmd).port.commands = cmd :: s.port.commands := rfl
@[simp] theorem issueNext_responses : (s.issueNext cmd).port.responses = s.port.responses := rfl
@[simp] theorem issueNext_pendingCommand : (s.issueNext cmd).pendingCommand = some cmd := rfl

end IssueNext

section ResetBlock
variable (s : State)

@[simp] theorem resetBlock_fault : s.resetBlock.fault = none := rfl
@[simp] theorem resetBlock_out : s.resetBlock.out = [] := rfl
@[simp] theorem resetBlock_ct0 : s.resetBlock.ct0 = .empty := rfl
@[simp] theorem resetBlock_ct1 : s.resetBlock.ct1 = .empty := rfl
@[simp] theorem resetBlock_lzw : s.resetBlock.lzw = .reset := rfl
@[simp] theorem resetBlock_bp : s.resetBlock.bp = .reset := rfl
@[simp] theorem resetBlock_port : s.resetBlock.port = s.port := rfl

end ResetBlock

section Banks
variable (s : State) (t : BankId) (b : Bank)

@[simp] theorem bank_bank0 : s.bank .bank0 = s.ct0 := rfl
@[simp] theorem bank_bank1 : s.bank .bank1 = s.ct1 := rfl
@[simp] theorem setBank_bank0_ct0 : (s.setBank .bank0 b).ct0 = b := rfl
@[simp] theorem setBank_bank0_ct1 : (s.setBank .bank0 b).ct1 = s.ct1 := rfl
@[simp] theorem setBank_bank1_ct0 : (s.setBank .bank1 b).ct0 = s.ct0 := rfl
@[simp] theorem setBank_bank1_ct1 : (s.setBank .bank1 b).ct1 = b := rfl
@[simp] theorem setBank_fault : (s.setBank t b).fault = s.fault := by cases t <;> rfl
@[simp] theorem setBank_out : (s.setBank t b).out = s.out := by cases t <;> rfl
@[simp] theorem setBank_lzw : (s.setBank t b).lzw = s.lzw := by cases t <;> rfl
@[simp] theorem setBank_bp : (s.setBank t b).bp = s.bp := by cases t <;> rfl
@[simp] theorem setBank_port : (s.setBank t b).port = s.port := by cases t <;> rfl
@[simp] theorem setBank_bank_same : (s.setBank t b).bank t = b := by cases t <;> rfl
theorem setBank_bank_other {t u : BankId} (h : u ≠ t) : (s.setBank t b).bank u = s.bank u := by
  cases t <;> cases u <;> first | rfl | exact absurd rfl h
theorem bank_of_ct {s s' : State} (h0 : s'.ct0 = s.ct0) (h1 : s'.ct1 = s.ct1) (t : BankId) : s'.bank t = s.bank t := by
  cases t <;> assumption

@[simp] theorem insert_colors (c : Color) : (b.insert c).colors = b.colors ++ [c] := rfl
@[simp] theorem insert_rsv (c : Color) : (b.insert c).rsv = b.rsv := rfl
@[simp] theorem insert_sealed (c : Color) : (b.insert c).sealed = b.sealed := rfl
@[simp] theorem insert_n (c : Color) : (b.insert c).n = b.n + 1 := by simp [Bank.n]
@[simp] theorem reserve_colors : b.reserve.colors = b.colors := rfl
@[simp] theorem reserve_rsv : b.reserve.rsv = true := rfl
@[simp] theorem reserve_sealed : b.reserve.sealed = b.sealed := rfl
@[simp] theorem reserve_n : b.reserve.n = b.n := rfl
@[simp] theorem seal_colors : b.seal.colors = b.colors := rfl
@[simp] theorem seal_rsv : b.seal.rsv = b.rsv := rfl
@[simp] theorem seal_sealed : b.seal.sealed = true := rfl
@[simp] theorem seal_n : b.seal.n = b.n := rfl
@[simp] theorem empty_colors : Bank.empty.colors = [] := rfl
@[simp] theorem empty_rsv : Bank.empty.rsv = false := rfl
@[simp] theorem empty_sealed : Bank.empty.sealed = false := rfl
@[simp] theorem empty_n : Bank.empty.n = 0 := rfl

end Banks

section Output
variable (s : State) (x : Byte) (bs : List Byte)

@[simp] theorem emitByte_fault : (s.emitByte x).fault = s.fault := rfl
@[simp] theorem emitByte_out : (s.emitByte x).out = s.out ++ [x] := rfl
@[simp] theorem emitByte_ct0 : (s.emitByte x).ct0 = s.ct0 := rfl
@[simp] theorem emitByte_ct1 : (s.emitByte x).ct1 = s.ct1 := rfl
@[simp] theorem emitByte_lzw : (s.emitByte x).lzw = s.lzw := rfl
@[simp] theorem emitByte_bp : (s.emitByte x).bp = s.bp := rfl
@[simp] theorem emitByte_port : (s.emitByte x).port = s.port := rfl
@[simp] theorem emitBytes_fault : (s.emitBytes bs).fault = s.fault := rfl
@[simp] theorem emitBytes_out : (s.emitBytes bs).out = s.out ++ bs := rfl
@[simp] theorem emitBytes_ct0 : (s.emitBytes bs).ct0 = s.ct0 := rfl
@[simp] theorem emitBytes_ct1 : (s.emitBytes bs).ct1 = s.ct1 := rfl
@[simp] theorem emitBytes_lzw : (s.emitBytes bs).lzw = s.lzw := rfl
@[simp] theorem emitBytes_bp : (s.emitBytes bs).bp = s.bp := rfl
@[simp] theorem emitBytes_port : (s.emitBytes bs).port = s.port := rfl
@[simp] theorem drainByte_fault : s.drainByte.fault = s.fault := rfl
@[simp] theorem drainByte_out : s.drainByte.out = s.out ++ [BitVec.ofNat 8 s.bp.acc] := rfl
@[simp] theorem drainByte_ct0 : s.drainByte.ct0 = s.ct0 := rfl
@[simp] theorem drainByte_ct1 : s.drainByte.ct1 = s.ct1 := rfl
@[simp] theorem drainByte_lzw : s.drainByte.lzw = s.lzw := rfl
@[simp] theorem drainByte_nbits : s.drainByte.bp.nbits = s.bp.nbits - 8 := rfl
@[simp] theorem drainByte_acc : s.drainByte.bp.acc = s.bp.acc / 256 := rfl
@[simp] theorem drainByte_port : s.drainByte.port = s.port := rfl

end Output

section Stream
variable (s : State) (t : BankId) (q : List Nat)

@[simp] theorem setBuf_fault : (s.setBuf q).fault = s.fault := rfl
@[simp] theorem setBuf_out : (s.setBuf q).out = s.out := rfl
@[simp] theorem setBuf_ct0 : (s.setBuf q).ct0 = s.ct0 := rfl
@[simp] theorem setBuf_ct1 : (s.setBuf q).ct1 = s.ct1 := rfl
@[simp] theorem setBuf_bp : (s.setBuf q).bp = s.bp := rfl
@[simp] theorem setBuf_port : (s.setBuf q).port = s.port := rfl
@[simp] theorem setBuf_lzw : (s.setBuf q).lzw = { s.lzw with buf := q } := rfl
@[simp] theorem closeStream_fault : s.closeStream.fault = s.fault := rfl
@[simp] theorem closeStream_out : s.closeStream.out = s.out := rfl
@[simp] theorem closeStream_ct0 : s.closeStream.ct0 = s.ct0 := rfl
@[simp] theorem closeStream_ct1 : s.closeStream.ct1 = s.ct1 := rfl
@[simp] theorem closeStream_bp : s.closeStream.bp = s.bp := rfl
@[simp] theorem closeStream_port : s.closeStream.port = s.port := rfl
@[simp] theorem closeStream_lzw : s.closeStream.lzw = { s.lzw with buf := [], phase := .idle } := rfl
@[simp] theorem openStream_fault : (s.openStream t).fault = s.fault := rfl
@[simp] theorem openStream_out : (s.openStream t).out = s.out := rfl
@[simp] theorem openStream_ct0 : (s.openStream t).ct0 = s.ct0 := rfl
@[simp] theorem openStream_ct1 : (s.openStream t).ct1 = s.ct1 := rfl
@[simp] theorem openStream_nbits : (s.openStream t).bp.nbits = 0 := rfl
@[simp] theorem openStream_acc : (s.openStream t).bp.acc = 0 := rfl
@[simp] theorem openStream_port : (s.openStream t).port = s.port := rfl
@[simp] theorem openStream_phase : (s.openStream t).lzw.phase = .first := rfl
@[simp] theorem openStream_sf : (s.openStream t).lzw.sf = (s.bank t).sizeField := rfl
@[simp] theorem openStream_bank : (s.openStream t).lzw.bank = t := rfl
@[simp] theorem openStream_m : (s.openStream t).lzw.m = minCodeSize (s.bank t).sizeField := rfl
@[simp] theorem openStream_w : (s.openStream t).lzw.w = minCodeSize (s.bank t).sizeField + 1 := rfl
@[simp] theorem openStream_next : (s.openStream t).lzw.next = 2 ^ minCodeSize (s.bank t).sizeField + 2 := rfl
@[simp] theorem openStream_dict : (s.openStream t).lzw.dict = [] := rfl
@[simp] theorem openStream_buf : (s.openStream t).lzw.buf = [] := rfl

end Stream

section CodeTable
variable (l : Lzw) (q : List Nat)

@[simp] theorem clearTable_phase : l.clearTable.phase = l.phase := rfl
@[simp] theorem clearTable_sf : l.clearTable.sf = l.sf := rfl
@[simp] theorem clearTable_bank : l.clearTable.bank = l.bank := rfl
@[simp] theorem clearTable_m : l.clearTable.m = l.m := rfl
@[simp] theorem clearTable_w : l.clearTable.w = l.m + 1 := rfl
@[simp] theorem clearTable_next : l.clearTable.next = l.firstCode := rfl
@[simp] theorem clearTable_dict : l.clearTable.dict = [] := rfl
@[simp] theorem clearTable_buf : l.clearTable.buf = l.buf := rfl
@[simp] theorem addEntry_phase : (l.addEntry q).phase = l.phase := rfl
@[simp] theorem addEntry_sf : (l.addEntry q).sf = l.sf := rfl
@[simp] theorem addEntry_bank : (l.addEntry q).bank = l.bank := rfl
@[simp] theorem addEntry_m : (l.addEntry q).m = l.m := rfl
@[simp] theorem addEntry_w : (l.addEntry q).w = if l.next = 2 ^ l.w then l.w + 1 else l.w := rfl
@[simp] theorem addEntry_next : (l.addEntry q).next = l.next + 1 := rfl
@[simp] theorem addEntry_dict : (l.addEntry q).dict = l.dict ++ [(q, l.next)] := rfl
@[simp] theorem addEntry_buf : (l.addEntry q).buf = l.buf := rfl

end CodeTable

end Sys2Proof.Machine
end

