-- ==== Sys2Proof/Laws/Ops.lean ====
section
/-! SUPPORT. One lemma per shared operation that says what it does: responses, faults, the bit packer. -/

namespace Sys2Proof.Machine

/-! ### Responses (30_encoding R84) -/

theorem responseWord_ok {value : Nat} (h : value < 2 ^ 24) : responseWord none value = okWord value := by
  apply BitVec.eq_of_toNat_eq
  simp only [responseWord, okWord, BitVec.toNat_append, BitVec.toNat_ofNat]
  simp only [Nat.zero_mod, Nat.zero_shiftLeft, Nat.zero_or]
  omega

@[simp] theorem responseWord_fault (c : FaultCode) (value : Nat) : responseWord (some c) value = faultWord c := by
  cases c <;> rfl

/-! ### Faults (60_exceptions R252, R253) -/

@[simp] theorem unlessFaulted_none {s : State} (h : s.fault = none) (r : Result) : unlessFaulted s r = r := by
  simp [unlessFaulted, State.faulted, h]

@[simp] theorem unlessFaulted_some {s : State} {c : FaultCode} (h : s.fault = some c) (r : Result) :
    unlessFaulted s r = .next (s.answer 0) := by
  simp [unlessFaulted, State.faulted, h]

/-- Everything a guarded command can answer. -/
theorem unlessFaulted_cases (s : State) (r : Result) :
    (∃ c, s.fault = some c ∧ unlessFaulted s r = .next (s.answer 0)) ∨ (s.fault = none ∧ unlessFaulted s r = r) := by
  cases h : s.fault with
  | none => exact .inr ⟨rfl, unlessFaulted_none h r⟩
  | some c => exact .inl ⟨c, rfl, unlessFaulted_some h r⟩

/-- Fault entry: the whole next state. -/
theorem raiseFault_eq (c : FaultCode) (s : State) :
    raiseFault c s = .next (State.answer { s with fault := some c } 0) := rfl

theorem respond_eq (value : Nat) (s : State) : respond value s = .next (s.answer value) := rfl

/-! ### The bit packer (43 R211, R212) -/

@[simp] theorem lowBytes_length (count value : Nat) : (lowBytes count value).length = count := by simp [lowBytes]

theorem lowBytes_succ (count value : Nat) :
    lowBytes (count + 1) value = BitVec.ofNat 8 value :: lowBytes count (value / 256) := by
  simp only [lowBytes, List.range_succ_eq_map, List.map_cons, List.map_map, Nat.mul_zero, Nat.pow_zero, Nat.div_one]
  congr 1
  apply List.map_congr_left
  intro i _
  simp only [Function.comp, Nat.succ_eq_add_one, Nat.mul_add, Nat.pow_add, Nat.div_div_eq_div_mul]
  rw [Nat.mul_comm]

theorem drainBytes_eq (k : Nat) (s : State) :
    State.drainBytes k s =
      { s with out := s.out ++ lowBytes k s.bp.acc,
               bp := { nbits := s.bp.nbits - 8 * k, acc := s.bp.acc / 256 ^ k } } := by
  induction k generalizing s with
  | zero => simp [State.drainBytes, lowBytes]
  | succ k ih =>
    rw [State.drainBytes, ih, lowBytes_succ]
    simp only [State.drainByte, State.emitByte, List.append_assoc, List.singleton_append, Nat.div_div_eq_div_mul,
      Nat.pow_succ, Nat.mul_comm (256 ^ k) 256]
    congr 2
    omega

section Push
variable (s : State) (v w : Nat)

/-- `bp_push` in one line: the whole bytes leave, the rest stays. -/
theorem bpPush_eq :
    s.bpPush v w =
      { s with out := s.out ++ lowBytes ((s.bp.nbits + w) / 8) (s.bp.acc + v * 2 ^ s.bp.nbits),
               bp := { nbits := (s.bp.nbits + w) % 8,
                       acc := (s.bp.acc + v * 2 ^ s.bp.nbits) / 256 ^ ((s.bp.nbits + w) / 8) } } := by
  rw [State.bpPush, drainBytes_eq]
  congr 2
  simp only
  omega

@[simp] theorem bpPush_fault : (s.bpPush v w).fault = s.fault := by rw [bpPush_eq]
@[simp] theorem bpPush_ct0 : (s.bpPush v w).ct0 = s.ct0 := by rw [bpPush_eq]
@[simp] theorem bpPush_ct1 : (s.bpPush v w).ct1 = s.ct1 := by rw [bpPush_eq]
@[simp] theorem bpPush_lzw : (s.bpPush v w).lzw = s.lzw := by rw [bpPush_eq]
@[simp] theorem bpPush_port : (s.bpPush v w).port = s.port := by rw [bpPush_eq]
theorem bpPush_out : (s.bpPush v w).out =
    s.out ++ lowBytes ((s.bp.nbits + w) / 8) (s.bp.acc + v * 2 ^ s.bp.nbits) := by rw [bpPush_eq]
theorem bpPush_nbits : (s.bpPush v w).bp.nbits = (s.bp.nbits + w) % 8 := by rw [bpPush_eq]
theorem bpPush_acc : (s.bpPush v w).bp.acc =
    (s.bp.acc + v * 2 ^ s.bp.nbits) / 256 ^ ((s.bp.nbits + w) / 8) := by rw [bpPush_eq]

/-- The bytes and bits after a push depend on the packer and the output before it alone. -/
theorem bpPush_congr {s t : State} (h : s.bp = t.bp) (v w : Nat) :
    (s.bpPush v w).bp = (t.bpPush v w).bp := by rw [bpPush_eq, bpPush_eq, h]

end Push

section Flush
variable (s : State)

@[simp] theorem bpFlush_fault : s.bpFlush.fault = s.fault := by unfold State.bpFlush; split <;> rfl
@[simp] theorem bpFlush_ct0 : s.bpFlush.ct0 = s.ct0 := by unfold State.bpFlush; split <;> rfl
@[simp] theorem bpFlush_ct1 : s.bpFlush.ct1 = s.ct1 := by unfold State.bpFlush; split <;> rfl
@[simp] theorem bpFlush_lzw : s.bpFlush.lzw = s.lzw := by unfold State.bpFlush; split <;> rfl
@[simp] theorem bpFlush_port : s.bpFlush.port = s.port := by unfold State.bpFlush; split <;> rfl
@[simp] theorem bpFlush_bp : s.bpFlush.bp = { nbits := 0, acc := 0 } := by unfold State.bpFlush; split <;> rfl
theorem bpFlush_out : s.bpFlush.out = s.out ++ (if s.bp.nbits > 0 then [BitVec.ofNat 8 s.bp.acc] else []) := by
  unfold State.bpFlush
  split <;> simp_all

end Flush

/-! ### The code table (42_lzw R175) and one index (42_lzw R174) -/

/-- Everything `dict_insert` can do. -/
theorem dictInsert_cases (s : State) (q : List Nat) :
    (s.lzw.next = Config.maxCodes ∧
      s.dictInsert q = { s.bpPush s.lzw.clearCode Config.maxCodeWidth with lzw := s.lzw.clearTable }) ∨
    (s.lzw.next ≠ Config.maxCodes ∧ s.dictInsert q = { s with lzw := s.lzw.addEntry q }) := by
  unfold State.dictInsert
  split
  · next h => left; exact ⟨h, by simp⟩
  · next h => right; exact ⟨h, rfl⟩

section DictInsert
variable (s : State) (q : List Nat)

@[simp] theorem dictInsert_fault : (s.dictInsert q).fault = s.fault := by
  rcases dictInsert_cases s q with ⟨_, h⟩ | ⟨_, h⟩ <;> simp [h]
@[simp] theorem dictInsert_ct0 : (s.dictInsert q).ct0 = s.ct0 := by
  rcases dictInsert_cases s q with ⟨_, h⟩ | ⟨_, h⟩ <;> simp [h]
@[simp] theorem dictInsert_ct1 : (s.dictInsert q).ct1 = s.ct1 := by
  rcases dictInsert_cases s q with ⟨_, h⟩ | ⟨_, h⟩ <;> simp [h]
@[simp] theorem dictInsert_port : (s.dictInsert q).port = s.port := by
  rcases dictInsert_cases s q with ⟨_, h⟩ | ⟨_, h⟩ <;> simp [h]
@[simp] theorem dictInsert_phase : (s.dictInsert q).lzw.phase = s.lzw.phase := by
  rcases dictInsert_cases s q with ⟨_, h⟩ | ⟨_, h⟩ <;> simp [h]
@[simp] theorem dictInsert_sf : (s.dictInsert q).lzw.sf = s.lzw.sf := by
  rcases dictInsert_cases s q with ⟨_, h⟩ | ⟨_, h⟩ <;> simp [h]
@[simp] theorem dictInsert_m : (s.dictInsert q).lzw.m = s.lzw.m := by
  rcases dictInsert_cases s q with ⟨_, h⟩ | ⟨_, h⟩ <;> simp [h]
@[simp] theorem dictInsert_bank : (s.dictInsert q).lzw.bank = s.lzw.bank := by
  rcases dictInsert_cases s q with ⟨_, h⟩ | ⟨_, h⟩ <;> simp [h]

end DictInsert

/-- Everything taking one index can do (42_lzw R174). -/
theorem takeIndex_cases {s t : State} {k : Nat} (h : s.takeIndex k = some t) :
    (s.lzw.phase = .first ∧ t = { s with lzw := { s.lzw with buf := [k], phase := .run } }) ∨
    (s.lzw.phase ≠ .first ∧ s.lzw.known (s.lzw.buf ++ [k]) = true ∧ t = s.setBuf (s.lzw.buf ++ [k])) ∨
    (∃ c, s.lzw.phase ≠ .first ∧ s.lzw.known (s.lzw.buf ++ [k]) = false ∧ s.lzw.codeOf s.lzw.buf = some c ∧
      t = ((s.bpPush c s.lzw.w).dictInsert (s.lzw.buf ++ [k])).setBuf [k]) := by
  unfold State.takeIndex at h
  split at h
  · next hp => exact .inl ⟨hp, by simpa using h.symm⟩
  · next hp =>
    split at h
    · next hk => exact .inr (.inl ⟨hp, hk, by simpa using h.symm⟩)
    · next hk =>
      split at h
      · simp at h
      · next c hc => exact .inr (.inr ⟨c, hp, by simpa using hk, hc, by simpa using h.symm⟩)

/-- What taking one index leaves: the fault register, the tables, the ports, and the stream's latched parameters. -/
theorem takeIndex_frame {s t : State} {k : Nat} (h : s.takeIndex k = some t) :
    t.fault = s.fault ∧ t.ct0 = s.ct0 ∧ t.ct1 = s.ct1 ∧ t.port = s.port ∧ t.lzw.sf = s.lzw.sf ∧ t.lzw.m = s.lzw.m ∧
      t.lzw.bank = s.lzw.bank := by
  rcases takeIndex_cases h with ⟨_, rfl⟩ | ⟨_, _, rfl⟩ | ⟨c, _, _, _, rfl⟩ <;> simp

/-- Taking an index fails only where the buffer is no known sequence (42_lzw R172). -/
theorem takeIndex_isSome {s : State} (k : Nat) (h : s.lzw.phase = .first ∨ s.lzw.known s.lzw.buf = true) :
    ∃ t, s.takeIndex k = some t := by
  unfold State.takeIndex
  split
  · exact ⟨_, rfl⟩
  · next hp =>
    split
    · exact ⟨_, rfl⟩
    · rcases h with h | h
      · exact absurd h hp
      · obtain ⟨c, hc⟩ := Option.isSome_iff_exists.mp h
        exact ⟨_, by rw [hc]⟩

/-- Everything taking an index and responding can answer. -/
theorem takeIndexAndRespond_cases (k value : Nat) (s : State) :
    (∃ t, s.takeIndex k = some t ∧ takeIndexAndRespond k value s = .next (t.answer value)) ∨
    takeIndexAndRespond k value s = .fault .bufferUnknown := by
  unfold takeIndexAndRespond
  split
  · exact .inr rfl
  · next t h => exact .inl ⟨t, h, rfl⟩

end Sys2Proof.Machine
end

