-- ==== Sys2Proof/Laws/Dict.lean ====
section
/-! SUPPORT. The dictionary's canonical form is kept by every dictionary operation, and what `code_of` gives after one
(10_state R36, R38(c); 42_lzw R172, R175). -/

namespace Sys2Proof.Machine

theorem lookup_eq_none_iff (d : Dict) (q : List Nat) : d.lookup q = none ↔ q ∉ d.map Prod.fst := by
  induction d with
  | nil => simp
  | cons e d ih =>
    obtain ⟨a, b⟩ := e
    by_cases h : q = a
    · subst h; simp
    · have h' : (q == a) = false := by simpa using h
      rw [List.lookup_cons, h']
      simp [ih, h]

theorem lookup_append_new (d : Dict) (q r : List Nat) (c : Nat) (h : d.lookup q = none) :
    List.lookup r (d ++ [(q, c)]) = if r = q then some c else d.lookup r := by
  induction d with
  | nil =>
    by_cases hr : r = q
    · subst hr; simp
    · have hr' : (r == q) = false := by simpa using hr
      simp [List.lookup_cons, hr, hr']
  | cons e d ih =>
    obtain ⟨a, b⟩ := e
    rw [List.lookup_cons] at h
    rw [List.cons_append, List.lookup_cons, List.lookup_cons]
    by_cases hra : r = a
    · subst hra
      have hne : q ≠ r := by rintro rfl; simp at h
      simp [hne.symm]
    · have hra' : (r == a) = false := by simpa using hra
      simp only [hra']
      apply ih
      split at h
      · simp at h
      · exact h

theorem mem_of_lookup_eq_some {d : Dict} {q : List Nat} {c : Nat} (h : d.lookup q = some c) : (q, c) ∈ d := by
  induction d with
  | nil => simp at h
  | cons e d ih =>
    obtain ⟨a, b⟩ := e
    rw [List.lookup_cons] at h
    by_cases hqa : q = a
    · subst hqa
      simp only [beq_self_eq_true, Option.some.injEq] at h
      simp [h]
    · have h' : (q == a) = false := by simpa using hqa
      rw [h'] at h
      exact List.mem_cons_of_mem _ (ih h)

/-- `code_of` on two or more indices is the dictionary's entry (42_lzw R172). -/
theorem codeIn_of_two_le {q : List Nat} (h : 2 ≤ q.length) (m : Nat) (d : Dict) : codeIn m d q = d.lookup q := by
  match q, h with
  | _ :: _ :: _, _ => rfl

/-- An emptied dictionary is in canonical form. -/
theorem Dict.wf_empty (m : Nat) : Dict.wf m (2 ^ m + 2) [] := by simp [Dict.wf]

/-- Adding an unknown sequence with the next code keeps the canonical form. -/
theorem Dict.wf_add {m next : Nat} {d : Dict} {q : List Nat} (h : Dict.wf m next d) (hq : d.lookup q = none) :
    Dict.wf m (next + 1) (d ++ [(q, next)]) := by
  obtain ⟨hle, hcodes, hkeys⟩ := h
  refine ⟨by omega, ?_, ?_⟩
  · rw [List.map_append, hcodes, show next + 1 - (2 ^ m + 2) = (next - (2 ^ m + 2)) + 1 by omega, List.range'_concat]
    simp
    omega
  · rw [lookup_eq_none_iff] at hq
    rw [List.map_append, List.nodup_append]
    refine ⟨hkeys, by simp, ?_⟩
    intro a ha b hb
    simp only [List.map_cons, List.map_nil, List.mem_singleton] at hb
    subst hb
    rintro rfl
    exact hq ha

/-- The size of a dictionary in canonical form is `next - (2^m + 2)` (10_state R36). -/
theorem Dict.wf_length {m next : Nat} {d : Dict} (h : Dict.wf m next d) : d.length = next - (2 ^ m + 2) := by
  have := congrArg List.length h.2.1
  simpa using this

/-- A code the dictionary holds is an extension code (10_state R38(c)). -/
theorem Dict.wf_code {m next c : Nat} {d : Dict} {q : List Nat} (h : Dict.wf m next d) (hq : d.lookup q = some c) :
    2 ^ m + 2 ≤ c ∧ c < next := by
  have hm : c ∈ d.map Prod.snd := List.mem_map.mpr ⟨(q, c), mem_of_lookup_eq_some hq, rfl⟩
  rw [h.2.1, List.mem_range'_1] at hm
  have := h.1
  omega

/-- `code_of` after an entry is added: the new sequence has the new code, every other sequence is as before. -/
theorem addEntry_codeOf (l : Lzw) (q r : List Nat) (hq : 2 ≤ q.length) (hnew : l.codeOf q = none) :
    (l.addEntry q).codeOf r = if r = q then some l.next else l.codeOf r := by
  have hd : l.dict.lookup q = none := by rwa [Lzw.codeOf, codeIn_of_two_le hq] at hnew
  match r with
  | [] =>
    have : ([] : List Nat) ≠ q := by rintro rfl; simp at hq
    simp [Lzw.codeOf, codeIn, this]
  | [k] =>
    have : [k] ≠ q := by rintro rfl; simp at hq
    rw [if_neg this]
    rfl
  | a :: b :: r' =>
    simp only [Lzw.codeOf, codeIn, addEntry_dict]
    exact lookup_append_new l.dict q (a :: b :: r') l.next hd

/-- What is known stays known when an entry is added. -/
theorem addEntry_known_of_known (l : Lzw) (q r : List Nat) (hq : 2 ≤ q.length) (hnew : l.codeOf q = none)
    (h : l.known r = true) : (l.addEntry q).known r = true := by
  rw [Lzw.known, addEntry_codeOf l q r hq hnew]
  split
  · rfl
  · exact h

end Sys2Proof.Machine
end

