-- ==== Sys2Proof/Laws/PerInstr.lean ====
section
/-! SUPPORT. Per-instruction laws. Family EncodedRow: the word of a well-formed command has the command's opcode in bits
31:24 and its operand field in bits 23:0, and the operand field uses only the bits of its format (30_encoding R80, R82). -/

namespace Sys2Proof.Laws

theorem opField_eq (w : Word) : opField w = w.toNat / 2 ^ 24 := by
  rw [opField, BitVec.extractLsb'_toNat, Nat.shiftRight_eq_div_pow]
  have := w.isLt
  omega

theorem argField_eq (w : Word) : argField w = w.toNat % 2 ^ 24 := by
  rw [argField, BitVec.extractLsb'_toNat, Nat.shiftRight_zero]

namespace EncodedRow

/-- The encoded word's two fields, and which operand bits may be set. -/
def Statement (i : Instr) : Prop :=
  i.wellFormed = true →
    opField (encode i) = i.opcode ∧ argField (encode i) = i.operands ∧ i.operands < 2 ^ i.usedBits

theorem ctOpcode_lt (t : BankId) {fn : Nat} (h : fn < 0x10) : ctOpcode t fn < 2 ^ 8 := by
  cases t <;> simp only [ctOpcode] <;> omega

theorem opcode_lt (i : Instr) : i.opcode < 2 ^ 8 := by
  cases i <;> simp only [Instr.opcode] <;> first | omega | exact ctOpcode_lt _ (by omega)

theorem usedBits_le (i : Instr) : i.usedBits ≤ 24 := by cases i <;> simp [Instr.usedBits]

/-- A well-formed command's operand field uses only its format's bits (30_encoding R82). -/
theorem operands_lt (i : Instr) (h : i.wellFormed = true) : i.operands < 2 ^ i.usedBits := by
  cases i <;>
    simp only [Instr.wellFormed, fitsSlot, fitsIndex, fitsCode, Bool.and_eq_true, decide_eq_true_eq] at h <;>
    simp only [Instr.operands, Instr.usedBits, argN4] <;>
    first | omega | exact BitVec.isLt _ | (rename_i t; cases t <;> decide)

theorem of_wellFormed (i : Instr) : Statement i := by
  intro h
  have hop := opcode_lt i
  have hu := operands_lt i h
  have harg : i.operands < 2 ^ 24 := Nat.lt_of_lt_of_le hu (Nat.pow_le_pow_right (by omega) (usedBits_le i))
  have hw : (encode i).toNat = i.opcode * 2 ^ 24 + i.operands := by
    rw [encode, BitVec.toNat_ofNat]
    omega
  refine ⟨?_, ?_, hu⟩
  · rw [opField_eq, hw]; omega
  · rw [argField_eq, hw]; omega

theorem sysNop : Statement .sysNop := of_wellFormed _

theorem sysReset : Statement .sysReset := of_wellFormed _

theorem sysStatus : Statement .sysStatus := of_wellFormed _

theorem packTcf (a : Nat) (b : Nat) (c : Nat) (d : Nat) : Statement (.packTcf a b c d) := of_wellFormed _

theorem packIcf (a : Nat) (b : Nat) (c : Nat) (d : Nat) : Statement (.packIcf a b c d) := of_wellFormed _

theorem packGcf (a : Nat) (b : Nat) (c : Nat) : Statement (.packGcf a b c) := of_wellFormed _

theorem ctNew (t : BankId) : Statement (.ctNew t) := of_wellFormed _

theorem ctInsert (t : BankId) (c : Color) : Statement (.ctInsert t c) := of_wellFormed _

theorem ctLookup (t : BankId) (c : Color) : Statement (.ctLookup t c) := of_wellFormed _

theorem ctColorAt (t : BankId) (i : Nat) : Statement (.ctColorAt t i) := of_wellFormed _

theorem ctReserve (t : BankId) : Statement (.ctReserve t) := of_wellFormed _

theorem ctTransp (t : BankId) : Statement (.ctTransp t) := of_wellFormed _

theorem ctSize (t : BankId) : Statement (.ctSize t) := of_wellFormed _

theorem ctDeclen (t : BankId) : Statement (.ctDeclen t) := of_wellFormed _

theorem ctBytelen (t : BankId) : Statement (.ctBytelen t) := of_wellFormed _

theorem ctUlen (t : BankId) : Statement (.ctUlen t) := of_wellFormed _

theorem ctSerialize (t : BankId) : Statement (.ctSerialize t) := of_wellFormed _

theorem lzwStart (t : BankId) : Statement (.lzwStart t) := of_wellFormed _

theorem lzwSym (k : Nat) : Statement (.lzwSym k) := of_wellFormed _

theorem lzwPix (c : Color) : Statement (.lzwPix c) := of_wellFormed _

theorem lzwEnd : Statement .lzwEnd := of_wellFormed _

theorem lzwNext : Statement .lzwNext := of_wellFormed _

theorem bpPush (v : Nat) (width : Nat) : Statement (.bpPush v width) := of_wellFormed _

theorem bpFlush : Statement .bpFlush := of_wellFormed _

end EncodedRow

end Sys2Proof.Laws
end

