-- ==== Sys2Proof/Laws/Encoding.lean ====
section
/-! SUPPORT. Reading the fields of a word written as a concatenation (00_scope R8), and bit fields of naturals. -/

namespace Sys2Proof.Laws

/-- `{a, b} = a * 2^width(b) + b` (00_scope R8). -/
theorem toNat_append_add {m n : Nat} (a : BitVec m) (b : BitVec n) :
    (a ++ b).toNat = a.toNat * 2 ^ n + b.toNat := by
  rw [BitVec.toNat_append, Nat.shiftLeft_eq, Nat.mul_comm, Nat.two_pow_add_eq_or_of_lt b.isLt]

theorem opField_append (op : BitVec 8) (arg : BitVec 24) : opField (op ++ arg) = op.toNat := by
  rw [opField_eq, toNat_append_add]
  have := arg.isLt
  omega

theorem argField_append (op : BitVec 8) (arg : BitVec 24) : argField (op ++ arg) = arg.toNat := by
  rw [argField_eq, toNat_append_add]
  have := arg.isLt
  omega

/-- An accepted format reads its command; a set unused bit is refused by name (30_encoding R86). -/
theorem withUsedBits_of_lt {used arg : Nat} (h : arg < 2 ^ used) (op : Nat) (i : Instr) :
    withUsedBits used op arg i = .ok i := by simp [withUsedBits, h]

theorem withUsedBits_of_le {used arg : Nat} (h : 2 ^ used ≤ arg) (op : Nat) (i : Instr) :
    withUsedBits used op arg i = .error (.unusedOperandBits op arg) := by
  simp [withUsedBits, Nat.not_lt.mpr h]

theorem withUsedBits_ok {used op arg : Nat} {i j : Instr} (h : withUsedBits used op arg i = .ok j) :
    arg < 2 ^ used ∧ i = j := by
  unfold withUsedBits at h
  split at h
  · next hh => exact ⟨hh, by simpa using h⟩
  · simp at h

/-! The row of R81 each opcode names. -/

theorem decodeFields_sysNop (arg : Nat) : decodeFields 0x00 arg = formatZ 0x00 arg .sysNop := rfl
theorem decodeFields_sysReset (arg : Nat) : decodeFields 0x01 arg = formatZ 0x01 arg .sysReset := rfl
theorem decodeFields_sysStatus (arg : Nat) : decodeFields 0x02 arg = formatZ 0x02 arg .sysStatus := rfl
theorem decodeFields_packTcf (arg : Nat) : decodeFields 0x10 arg = formatN4 0x10 arg .packTcf := rfl
theorem decodeFields_packIcf (arg : Nat) : decodeFields 0x11 arg = formatN4 0x11 arg .packIcf := rfl
theorem decodeFields_packGcf (arg : Nat) : decodeFields 0x12 arg = formatN3 0x12 arg .packGcf := rfl
theorem decodeFields_lzwStart (arg : Nat) : decodeFields 0x40 arg = formatT 0x40 arg .lzwStart := rfl
theorem decodeFields_lzwSym (arg : Nat) : decodeFields 0x41 arg = formatI 0x41 arg .lzwSym := rfl
theorem decodeFields_lzwPix (arg : Nat) : decodeFields 0x42 arg = formatC arg .lzwPix := rfl
theorem decodeFields_lzwEnd (arg : Nat) : decodeFields 0x43 arg = formatZ 0x43 arg .lzwEnd := rfl
theorem decodeFields_lzwNext (arg : Nat) : decodeFields 0x44 arg = formatZ 0x44 arg .lzwNext := rfl
theorem decodeFields_bpPush (arg : Nat) : decodeFields 0x50 arg = formatP 0x50 arg .bpPush := rfl
theorem decodeFields_bpFlush (arg : Nat) : decodeFields 0x51 arg = formatZ 0x51 arg .bpFlush := rfl

/-- A CT opcode: function `fn` on bank `t` (30_encoding R81). -/
theorem decodeFields_ct (t : BankId) {fn : Nat} (h : fn < 16) (arg : Nat) :
    decodeFields (ctOpcode t fn) arg = decodeCt (ctOpcode t fn) fn t arg := by
  have h1 : bitsOf (ctOpcode t fn) 7 5 = 0b001 := by cases t <;> simp only [ctOpcode, bitsOf] <;> omega
  have h2 : bitsOf (ctOpcode t fn) 3 0 = fn := by cases t <;> simp only [ctOpcode, bitsOf] <;> omega
  have h3 : bankOfBit (bitsOf (ctOpcode t fn) 4 4) = t := by
    have h4 : bitsOf (ctOpcode t fn) 4 4 = match t with | .bank0 => 0 | .bank1 => 1 := by
      cases t <;> simp only [ctOpcode, bitsOf] <;> omega
    rw [h4]
    cases t <;> rfl
  unfold decodeFields
  rw [if_pos h1, h2, h3]

/-- A bit field of a natural number, without the powers. -/
theorem bitsOf_eq (v hi lo : Nat) : bitsOf v hi lo = v / 2 ^ lo % 2 ^ (hi - lo + 1) := rfl

end Sys2Proof.Laws
end

