-- ==== Sys2Proof/Laws/Exec.lean ====
section
/-! SUPPORT. Everything a command can do, said once: it answers a standing fault, raises a fault, resets the block, or has
its effect. Later proofs cite `exec_next_cases` and split the effect, and do not unfold a meaning again. -/

namespace Sys2Proof.Machine

/-- The commands that write nothing of the block when they succeed (20_memory R71, and SYS_NOP). -/
def readOnly : Instr → Bool
  | .sysNop => true
  | .sysReset => false
  | .sysStatus => true
  | .packTcf _ _ _ _ => true
  | .packIcf _ _ _ _ => true
  | .packGcf _ _ _ => true
  | .ctNew _ => false
  | .ctInsert _ _ => false
  | .ctLookup _ _ => true
  | .ctColorAt _ _ => true
  | .ctReserve _ => false
  | .ctTransp _ => false
  | .ctSize _ => true
  | .ctDeclen _ => true
  | .ctBytelen _ => true
  | .ctUlen _ => true
  | .ctSerialize _ => false
  | .lzwStart _ => false
  | .lzwSym _ => false
  | .lzwPix _ => false
  | .lzwEnd => false
  | .lzwNext => true
  | .bpPush _ _ => false
  | .bpFlush => false

/-- The effect of a command that succeeds on an unfaulted block, before its response is given. -/
inductive Effect : Instr → State → State → Prop where
  | read {i : Instr} {s : State} (h : readOnly i = true) : Effect i s s
  | ctNew (u : BankId) (s : State) : Effect (.ctNew u) s (s.setBank u .empty)
  | ctInsert {u : BankId} {c : Color} {s : State} (hs : (s.bank u).sealed = false) (hc : c ∉ (s.bank u).colors)
      (hn : (s.bank u).n < (s.bank u).capacity) : Effect (.ctInsert u c) s (s.setBank u ((s.bank u).insert c))
  | ctReserve {u : BankId} {s : State} (h : (s.bank u).reserveFault = none) :
      Effect (.ctReserve u) s (s.setBank u (s.bank u).reserve)
  | ctTransp {u : BankId} {s : State} (h : (s.bank u).reserveFault = none) :
      Effect (.ctTransp u) s (s.setBank u (s.bank u).reserve)
  | ctSerialize {u : BankId} {s : State} (h : s.lzw.phase = .idle) :
      Effect (.ctSerialize u) s ((s.emitBytes (s.bank u).serialBytes).setBank u (s.bank u).seal)
  | lzwStart {u : BankId} {s : State} (h : s.lzw.phase = .idle) :
      Effect (.lzwStart u) s ((s.openStream u).bpPush (s.openStream u).lzw.clearCode (s.openStream u).lzw.w)
  | lzwSym {k : Nat} {s t : State} (hp : s.lzw.phase ≠ .idle) (hk : k < s.lzw.indexBound) (h : s.takeIndex k = some t) :
      Effect (.lzwSym k) s t
  | lzwPix {c : Color} {k : Nat} {s t : State} (hp : s.lzw.phase ≠ .idle)
      (hc : (s.bank s.lzw.bank).indexOf c = some k) (hk : k < s.lzw.indexBound) (h : s.takeIndex k = some t) :
      Effect (.lzwPix c) s t
  | lzwEnd {c : Nat} {s : State} (hp : s.lzw.phase = .run) (hc : s.lzw.codeOf s.lzw.buf = some c) :
      Effect .lzwEnd s ((s.bpPush c s.lzw.w).bpPush s.lzw.endCode s.lzw.w).bpFlush.closeStream
  | bpPush {v w : Nat} {s : State} (hp : s.lzw.phase = .idle) (h2 : 2 ≤ w) (h12 : w ≤ 12) (hv : v < 2 ^ w) :
      Effect (.bpPush v w) s (s.bpPush v w)
  | bpFlush {s : State} (hp : s.lzw.phase = .idle) : Effect .bpFlush s s.bpFlush

/-- An effect leaves the fault register and the ports. -/
theorem Effect.fault_port {i : Instr} {s t : State} (h : Effect i s t) : t.fault = s.fault ∧ t.port = s.port := by
  cases h with
  | lzwSym _ _ h => exact ⟨(takeIndex_frame h).1, (takeIndex_frame h).2.2.2.1⟩
  | lzwPix _ _ _ h => exact ⟨(takeIndex_frame h).1, (takeIndex_frame h).2.2.2.1⟩
  | _ => simp

/-- What an unfaulted command comes to: its effect and a response, a fault raised, or the model's stop in LZW_SYM, LZW_PIX
and LZW_END. -/
inductive Comes (i : Instr) (s : State) : Result → Prop where
  | effect (v : Nat) (t : State) (h : Effect i s t) : Comes i s (respond v t)
  | raises (c : FaultCode) : Comes i s (raiseFault c s)
  | stops : Comes i s (.fault .bufferUnknown)

theorem comes_takeIndex {i : Instr} {s : State} {k : Nat} (v : Nat)
    (h : ∀ t, s.takeIndex k = some t → Effect i s t) : Comes i s (takeIndexAndRespond k v s) := by
  unfold takeIndexAndRespond
  split
  · exact .stops
  · next t ht => exact .effect v t (h t ht)

/-- Every command on an unfaulted block, SYS_RESET apart. -/
theorem exec_comes {i : Instr} {s : State} (hs : s.fault = none) (hi : i ≠ .sysReset) : Comes i s (exec i s) := by
  cases i with
  | sysReset => exact absurd rfl hi
  | sysNop => rw [exec, execSysNop, unlessFaulted_none hs]; exact .effect _ _ (.read rfl)
  | sysStatus => rw [exec, execSysStatus, unlessFaulted_none hs]; exact .effect _ _ (.read rfl)
  | packTcf a b c d =>
    rw [exec, execPackTcf, unlessFaulted_none hs, packAndRespond]
    split
    · exact .effect _ _ (.read rfl)
    · exact .raises _
  | packIcf a b c d =>
    rw [exec, execPackIcf, unlessFaulted_none hs, packAndRespond]
    split
    · exact .effect _ _ (.read rfl)
    · exact .raises _
  | packGcf a b c =>
    rw [exec, execPackGcf, unlessFaulted_none hs]
    split
    · exact .raises _
    · split
      · exact .raises _
      · exact .effect _ _ (.read rfl)
  | ctNew u => rw [exec, execCtNew, unlessFaulted_none hs]; exact .effect _ _ (.ctNew u s)
  | ctInsert u c =>
    rw [exec, execCtInsert, unlessFaulted_none hs]
    split
    · exact .raises _
    · next h1 =>
      split
      · exact .raises _
      · next h2 =>
        split
        · next h3 => exact .effect _ _ (.ctInsert (by simpa using h1) h2 h3)
        · exact .raises _
  | ctLookup u c =>
    rw [exec, execCtLookup, unlessFaulted_none hs]
    split
    · exact .raises _
    · exact .effect _ _ (.read rfl)
  | ctColorAt u k =>
    rw [exec, execCtColorAt, unlessFaulted_none hs]
    split
    · exact .effect _ _ (.read rfl)
    · exact .raises _
  | ctReserve u =>
    rw [exec, execCtReserve, unlessFaulted_none hs]
    split
    · exact .raises _
    · next h => exact .effect _ _ (.ctReserve h)
  | ctTransp u =>
    rw [exec, execCtTransp, unlessFaulted_none hs]
    split
    · exact .raises _
    · next h => exact .effect _ _ (.ctTransp h)
  | ctSize u => rw [exec, execCtSize, unlessFaulted_none hs]; exact .effect _ _ (.read rfl)
  | ctDeclen u => rw [exec, execCtDeclen, unlessFaulted_none hs]; exact .effect _ _ (.read rfl)
  | ctBytelen u => rw [exec, execCtBytelen, unlessFaulted_none hs]; exact .effect _ _ (.read rfl)
  | ctUlen u => rw [exec, execCtUlen, unlessFaulted_none hs]; exact .effect _ _ (.read rfl)
  | ctSerialize u =>
    rw [exec, execCtSerialize, unlessFaulted_none hs]
    split
    · next h => exact .effect _ _ (.ctSerialize h)
    · exact .raises _
  | lzwStart u =>
    rw [exec, execLzwStart, unlessFaulted_none hs]
    split
    · next h => exact .effect _ _ (.lzwStart h)
    · exact .raises _
  | lzwSym k =>
    rw [exec, execLzwSym, unlessFaulted_none hs]
    split
    · exact .raises _
    · next hp =>
      split
      · next hk => exact comes_takeIndex _ fun t ht => .lzwSym hp hk ht
      · exact .raises _
  | lzwPix c =>
    rw [exec, execLzwPix, unlessFaulted_none hs]
    split
    · exact .raises _
    · next hp =>
      split
      · exact .raises _
      · next k hc =>
        split
        · next hk => exact comes_takeIndex _ fun t ht => .lzwPix hp hc hk ht
        · exact .raises _
  | lzwEnd =>
    rw [exec, execLzwEnd, unlessFaulted_none hs]
    split
    · exact .raises _
    · exact .raises _
    · next hp =>
      split
      · exact .stops
      · next c hc => exact .effect _ _ (.lzwEnd hp hc)
  | lzwNext => rw [exec, execLzwNext, unlessFaulted_none hs]; exact .effect _ _ (.read rfl)
  | bpPush v w =>
    rw [exec, execBpPush, unlessFaulted_none hs]
    split
    · exact .raises _
    · next hp =>
      split
      · exact .raises _
      · next hw =>
        simp only [Config.bpMinWidth, Config.bpMaxWidth] at hw
        split
        · next hv => exact .effect _ _ (.bpPush (by simpa using hp) (by omega) (by omega) (by simpa [fits] using hv))
        · exact .raises _
  | bpFlush =>
    rw [exec, execBpFlush, unlessFaulted_none hs]
    split
    · exact .raises _
    · next hp => exact .effect _ _ (.bpFlush (by simpa using hp))

/-- While a fault stands, every command but SYS_RESET answers it. -/
theorem exec_of_faulted {i : Instr} {s : State} {c : FaultCode} (hs : s.fault = some c) (hi : i ≠ .sysReset) :
    exec i s = .next (s.answer 0) := by
  cases i with
  | sysReset => exact absurd rfl hi
  | _ => exact unlessFaulted_some hs _

/-- SYS_RESET, in every state. -/
theorem exec_sysReset (s : State) : exec .sysReset s = .next (s.resetBlock.answer 0) := rfl

/-- Everything a command that answers a next state did. -/
theorem exec_next_cases {i : Instr} {s t : State} (h : exec i s = .next t) :
    (i = .sysReset ∧ t = s.resetBlock.answer 0) ∨
    (i ≠ .sysReset ∧ (∃ c, s.fault = some c) ∧ t = s.answer 0) ∨
    (i ≠ .sysReset ∧ s.fault = none ∧ ∃ c, t = State.answer { s with fault := some c } 0) ∨
    (i ≠ .sysReset ∧ s.fault = none ∧ ∃ v s', Effect i s s' ∧ t = s'.answer v) := by
  by_cases hi : i = .sysReset
  · subst hi
    rw [exec_sysReset] at h
    exact .inl ⟨rfl, by simpa using h.symm⟩
  · cases hs : s.fault with
    | some c =>
      rw [exec_of_faulted hs hi] at h
      exact .inr (.inl ⟨hi, ⟨c, rfl⟩, by simpa using h.symm⟩)
    | none =>
      have hc := exec_comes hs hi
      rw [h] at hc
      generalize hr : Host.Outcome.next (φ := Fault) (ρ := Refusal) t = r at hc
      cases hc with
      | effect v s' he =>
        refine .inr (.inr (.inr ⟨hi, rfl, v, s', he, ?_⟩))
        simpa [respond] using hr
      | raises c =>
        refine .inr (.inr (.inl ⟨hi, rfl, c, ?_⟩))
        simpa [raiseFault] using hr
      | stops => simp at hr

/-! ### From a meaning's answer to the forms claims are stated in -/

theorem endsFaulted_of_raise {i : Instr} {s : State} {c : FaultCode} (h : exec i s = raiseFault c s) :
    EndsFaulted i s c := by
  refine ⟨_, h, rfl, ⟨rfl, ⟨rfl, rfl⟩, rfl, rfl⟩, ?_⟩
  simp [Answers]

theorem endsFaulted_of_faulted {i : Instr} {s : State} {c : FaultCode} (hs : s.fault = some c) (hi : i ≠ .sysReset) :
    EndsFaulted i s c := by
  refine ⟨_, exec_of_faulted hs hi, by simpa using hs, ⟨rfl, ⟨rfl, rfl⟩, rfl, rfl⟩, ?_⟩
  simp [Answers, hs]

theorem succeeds_of_respond {i : Instr} {s t : State} {v : Nat} (h : exec i s = respond v t) (ht : t.fault = none)
    (hp : t.port = s.port) (hv : v < 2 ^ 24) : Succeeds i s (t.answer v) v := by
  refine ⟨h, by simpa using ht, ?_⟩
  simp [Answers, ht, hp, responseWord_ok hv]

theorem reads_of_respond {i : Instr} {s : State} {v : Nat} (h : exec i s = respond v s) (hs : s.fault = none)
    (hv : v < 2 ^ 24) : Reads i s v :=
  ⟨_, succeeds_of_respond h hs rfl hv, rfl, ⟨rfl, rfl⟩, rfl, rfl⟩

end Sys2Proof.Machine
end

