-- ==== Sys2Proof/Laws/Numbers.lean ====
section
/-! SUPPORT. What the helper functions of 00_scope R9 compute: the least exponent, `clp2`, `is_pow2`. -/

namespace Sys2Proof.Machine

theorem ceilLog2From_le_iff (fuel start n e : Nat) (hfuel : n ≤ 2 ^ (start + fuel)) (hs : start ≤ e) :
    ceilLog2From fuel start n ≤ e ↔ n ≤ 2 ^ e := by
  induction fuel generalizing start with
  | zero => exact ⟨fun _ => hfuel.trans (Nat.pow_le_pow_right (by omega) (by omega)), fun _ => hs⟩
  | succ fuel ih =>
    rw [ceilLog2From]
    split
    · next h => exact ⟨fun _ => h.trans (Nat.pow_le_pow_right (by omega) hs), fun _ => hs⟩
    · next h =>
      rcases Nat.lt_or_ge start e with hlt | hge
      · exact ih (start + 1) (by rwa [show start + 1 + fuel = start + (fuel + 1) by omega]) hlt
      · obtain rfl : start = e := by omega
        refine ⟨fun hle => ?_, fun hle => absurd hle h⟩
        have key : ∀ f st, st ≤ ceilLog2From f st n := by
          intro f
          induction f with
          | zero => intro st; exact Nat.le_refl st
          | succ f ihf =>
            intro st
            rw [ceilLog2From]
            split
            · exact Nat.le_refl st
            · exact (Nat.le_succ st).trans (ihf (st + 1))
        have := key fuel (start + 1)
        omega

/-- `ceilLog2 n` is the least `e` with `n <= 2^e`. -/
theorem ceilLog2_le_iff (n e : Nat) : ceilLog2 n ≤ e ↔ n ≤ 2 ^ e := by
  apply ceilLog2From_le_iff
  · simpa using Nat.lt_two_pow_self.le
  · exact Nat.zero_le e

theorem le_clp2 (n : Nat) : n ≤ clp2 n := (ceilLog2_le_iff n _).mp (Nat.le_refl _)

/-- `clp2 n` is the least power of two that is at least `n` (00_scope R9). -/
theorem clp2_le_iff (n e : Nat) : clp2 n ≤ 2 ^ e ↔ n ≤ 2 ^ e := by
  rw [clp2, Nat.pow_le_pow_iff_right (by omega), ceilLog2_le_iff]

@[simp] theorem ceilLog2_two_pow (e : Nat) : ceilLog2 (2 ^ e) = e := by
  apply Nat.le_antisymm
  · exact (ceilLog2_le_iff _ _).mpr (Nat.le_refl _)
  · exact (Nat.pow_le_pow_iff_right (by omega)).mp ((ceilLog2_le_iff (2 ^ e) _).mp (Nat.le_refl _))

@[simp] theorem clp2_two_pow (e : Nat) : clp2 (2 ^ e) = 2 ^ e := by simp [clp2]

@[simp] theorem log2_two_pow (e : Nat) : log2 (2 ^ e) = e := ceilLog2_two_pow e

/-- `is_pow2` (00_scope R9). -/
theorem isPow2_iff (n : Nat) : isPow2 n = true ↔ ∃ e, n = 2 ^ e := by
  simp only [isPow2, decide_eq_true_eq]
  constructor
  · intro h; exact ⟨ceilLog2 n, h.symm⟩
  · rintro ⟨e, rfl⟩; exact clp2_two_pow e

end Sys2Proof.Machine
end

