-- ==== Sys2Proof/Laws/Tables.lean ====
section
/-! SUPPORT. One lemma per colour-table and packed-field operation: the fit checks, the packed values, the lookup by
content, the capacity, the serialised bytes. -/

namespace Sys2Proof.Machine

theorem tcfFields_fit_iff (h r o z : Nat) :
    fieldsFit (tcfFields h r o z) = true ↔ h < 2 ∧ r < 8 ∧ o < 2 ∧ z < 8 := by
  simp only [fieldsFit, tcfFields, fits, List.all_cons, List.all_nil, Bool.and_true, Bool.and_eq_true,
    decide_eq_true_eq]
  omega

theorem icfFields_fit_iff (h i o z : Nat) :
    fieldsFit (icfFields h i o z) = true ↔ h < 2 ∧ i < 2 ∧ o < 2 ∧ z < 8 := by
  simp only [fieldsFit, icfFields, fits, List.all_cons, List.all_nil, Bool.and_true, Bool.and_eq_true,
    decide_eq_true_eq]
  omega

theorem gcfFields_fit_iff (d w t : Nat) : fieldsFit (gcfFields d w t) = true ↔ d < 8 ∧ w < 2 ∧ t < 2 := by
  simp only [fieldsFit, gcfFields, fits, List.all_cons, List.all_nil, Bool.and_true, Bool.and_eq_true,
    decide_eq_true_eq]
  omega

theorem packFields_tcf (h r o z : Nat) : packFields (tcfFields h r o z) = h * 128 + r * 16 + o * 8 + z := by
  simp only [packFields, tcfFields, List.foldl_cons, List.foldl_nil]
  omega

theorem packFields_icf (h i o z : Nat) : packFields (icfFields h i o z) = h * 128 + i * 64 + o * 32 + z := by
  simp only [packFields, icfFields, List.foldl_cons, List.foldl_nil]
  omega

theorem packFields_gcf (d w t : Nat) : packFields (gcfFields d w t) = d * 4 + w * 2 + t := by
  simp only [packFields, gcfFields, List.foldl_cons, List.foldl_nil]
  omega

theorem capacity_eq (b : Bank) : b.capacity = 256 - b.rsv.toNat := by
  unfold Bank.capacity Config.maxColors
  cases b.rsv <;> rfl

/-- 10_state R25(b) as a sum. -/
theorem Bank.Inv.n_add_rsv_le {b : Bank} (h : b.Inv) : b.n + b.rsv.toNat ≤ 256 := by
  have h2 := h.2
  rw [capacity_eq] at h2
  have : b.rsv.toNat ≤ 1 := Bool.toNat_le _
  omega

/-- Looking up a colour that is there gives its one index (41 R135). -/
theorem indexOf_of_getElem? {b : Bank} (hb : b.colors.Nodup) {i : Nat} {c : Color} (h : b.colors[i]? = some c) :
    b.indexOf c = some i := by
  obtain ⟨hi, he⟩ := List.getElem?_eq_some_iff.mp h
  rw [Bank.indexOf, List.findIdx?_eq_some_iff_getElem]
  refine ⟨hi, by simpa using he, fun j hj => ?_⟩
  simp only [beq_iff_eq]
  intro hjc
  have := (List.Nodup.getElem_inj_iff hb (hi := by omega) (hj := hi)).mp (hjc.trans he.symm)
  omega

/-- Looking up a colour that is not there (41 R135). -/
theorem indexOf_of_not_mem {b : Bank} {c : Color} (h : c ∉ b.colors) : b.indexOf c = none := by
  rw [Bank.indexOf, List.findIdx?_eq_none_iff]
  intro x hx
  simp only [beq_eq_false_iff_ne]
  rintro rfl
  exact h hx

/-- A found index is the colour's (41 R135). -/
theorem getElem?_of_indexOf {b : Bank} {i : Nat} {c : Color} (h : b.indexOf c = some i) : b.colors[i]? = some c := by
  rw [Bank.indexOf, List.findIdx?_eq_some_iff_getElem] at h
  obtain ⟨hi, he, _⟩ := h
  rw [List.getElem?_eq_getElem hi]
  simpa using he

theorem colorAt_of_getElem? {b : Bank} {i : Nat} {c : Color} (h : b.colors[i]? = some c) : b.colorAt i = c := by
  rw [Bank.colorAt, List.getD_eq_getElem?_getD, h]
  rfl

theorem colorAt_of_le {b : Bank} {i : Nat} (h : b.n ≤ i) : b.colorAt i = black := by
  rw [Bank.colorAt, List.getD_eq_getElem?_getD, List.getElem?_eq_none h]
  rfl

@[simp] theorem colorBytes_length (c : Color) : (colorBytes c).length = 3 := rfl

theorem serialBytes_length (b : Bank) : b.serialBytes.length = 3 * b.declaredLength := by
  simp [Bank.serialBytes, List.length_flatMap, Nat.mul_comm]

/-- Setting a flag that is set changes nothing (41 R137: "idempotent"). -/
theorem setBank_reserve_of_rsv {s : State} {u : BankId} (h : (s.bank u).rsv = true) :
    s.setBank u (s.bank u).reserve = s := by
  cases u <;> simp only [bank_bank0, bank_bank1] at h ⊢ <;> simp [State.setBank, Bank.reserve, ← h]

end Sys2Proof.Machine
end

