-- ==== Sys2Proof/Tests/Slice0.lean ====
section
/-! SUPPORT. The model's own tests: ill-formed terms refused, one word per command written from the spec's encoding, one step
per command against the spec's vectors, and a witness for every statement that has hypotheses. Expected values are those of
spec 95_test_vectors.md and of the worked examples, or worked out by hand from the rules cited. -/

namespace Sys2Proof.Tests

open Sys2Proof Sys2Proof.Machine

/-! ### Well-formedness: one ill-formed term per check (30_encoding R82) -/

theorem test_wf_tcf_slot0 : (Instr.packTcf 16 0 0 0).wellFormed = false := by decide
theorem test_wf_tcf_slot1 : (Instr.packTcf 0 16 0 0).wellFormed = false := by decide
theorem test_wf_tcf_slot2 : (Instr.packTcf 0 0 16 0).wellFormed = false := by decide
theorem test_wf_tcf_slot3 : (Instr.packTcf 0 0 0 16).wellFormed = false := by decide
theorem test_wf_icf_slot0 : (Instr.packIcf 16 0 0 0).wellFormed = false := by decide
theorem test_wf_icf_slot1 : (Instr.packIcf 0 16 0 0).wellFormed = false := by decide
theorem test_wf_icf_slot2 : (Instr.packIcf 0 0 16 0).wellFormed = false := by decide
theorem test_wf_icf_slot3 : (Instr.packIcf 0 0 0 16).wellFormed = false := by decide
theorem test_wf_gcf_slot0 : (Instr.packGcf 16 0 0).wellFormed = false := by decide
theorem test_wf_gcf_slot1 : (Instr.packGcf 0 16 0).wellFormed = false := by decide
theorem test_wf_gcf_slot2 : (Instr.packGcf 0 0 16).wellFormed = false := by decide
theorem test_wf_colorAt_index : (Instr.ctColorAt .bank1 65536).wellFormed = false := by decide
theorem test_wf_sym_index : (Instr.lzwSym 65536).wellFormed = false := by decide
theorem test_wf_push_code : (Instr.bpPush 4096 12).wellFormed = false := by decide
theorem test_wf_push_width : (Instr.bpPush 1 16).wellFormed = false := by decide
/-- Operands at the top of their fields are well-formed: whether they fit a sub-field is the command's own check. -/
theorem test_wf_accepts : (Instr.packTcf 15 15 15 15).wellFormed = true ∧ (Instr.ctColorAt .bank0 65535).wellFormed = true ∧
    (Instr.bpPush 4095 15).wellFormed = true := by decide

/-! ### Decoding: words written from 30_encoding R80 to R82, and the vectors' words (95) -/

theorem test_decode_sysNop : decode 0x00000000 = .ok .sysNop := rfl
theorem test_decode_sysReset : decode 0x01000000 = .ok .sysReset := rfl
theorem test_decode_sysStatus : decode 0x02000000 = .ok .sysStatus := rfl
theorem test_decode_packTcf : decode 0b00010000_00000000_0001_0011_0000_0101 = .ok (.packTcf 1 3 0 5) := rfl
theorem test_decode_packIcf : decode 0b00010001_00000000_0001_0000_0000_0010 = .ok (.packIcf 1 0 0 2) := rfl
theorem test_decode_packGcf : decode 0b00010010_000000000000_0010_0000_0001 = .ok (.packGcf 2 0 1) := rfl
theorem test_decode_ctNew : decode 0b001_1_0000_000000000000000000000000 = .ok (.ctNew .bank1) := rfl
theorem test_decode_ctInsert : decode 0b001_0_0001_00010010_00110100_01010110 = .ok (.ctInsert .bank0 0x123456#24) := rfl
theorem test_decode_ctLookup : decode 0b001_1_0010_00000000_11111111_00000000 = .ok (.ctLookup .bank1 0x00FF00#24) := rfl
theorem test_decode_ctColorAt : decode 0b001_0_0011_00000000_00000000_00000010 = .ok (.ctColorAt .bank0 2) := rfl
theorem test_decode_ctReserve : decode 0b001_1_0100_000000000000000000000000 = .ok (.ctReserve .bank1) := rfl
theorem test_decode_ctTransp : decode 0b001_0_0101_000000000000000000000000 = .ok (.ctTransp .bank0) := rfl
theorem test_decode_ctSize : decode 0b001_1_0110_000000000000000000000000 = .ok (.ctSize .bank1) := rfl
theorem test_decode_ctDeclen : decode 0b001_0_0111_000000000000000000000000 = .ok (.ctDeclen .bank0) := rfl
theorem test_decode_ctBytelen : decode 0b001_1_1000_000000000000000000000000 = .ok (.ctBytelen .bank1) := rfl
theorem test_decode_ctUlen : decode 0b001_0_1001_000000000000000000000000 = .ok (.ctUlen .bank0) := rfl
theorem test_decode_ctSerialize : decode 0b001_1_1010_000000000000000000000000 = .ok (.ctSerialize .bank1) := rfl
theorem test_decode_lzwStart : decode 0b01000000_00000000000000000000000_1 = .ok (.lzwStart .bank1) := rfl
theorem test_decode_lzwSym : decode 0b01000001_00000000_0000000100000010 = .ok (.lzwSym 258) := rfl
theorem test_decode_lzwPix : decode 0b01000010_00000000_00000000_11111111 = .ok (.lzwPix 0x0000FF#24) := rfl
theorem test_decode_lzwEnd : decode 0b01000011_000000000000000000000000 = .ok .lzwEnd := rfl
theorem test_decode_lzwNext : decode 0b01000100_000000000000000000000000 = .ok .lzwNext := rfl
theorem test_decode_bpPush : decode 0b01010000_00000000_1100_100000000001 = .ok (.bpPush 0x801 12) := rfl
theorem test_decode_bpFlush : decode 0b01010001_000000000000000000000000 = .ok .bpFlush := rfl

/-- Words one bit away from legal ones (30_encoding R86). -/
theorem test_decode_illegal :
    decode 0x03000000 = .error (.unassignedOpcode 0x03) ∧ decode 0x13000000 = .error (.unassignedOpcode 0x13) ∧
    decode 0x2B000000 = .error (.unassignedOpcode 0x2B) ∧ decode 0x3F000000 = .error (.unassignedOpcode 0x3F) ∧
    decode 0x45000000 = .error (.unassignedOpcode 0x45) ∧ decode 0x52000000 = .error (.unassignedOpcode 0x52) ∧
    decode 0xA1000000 = .error (.unassignedOpcode 0xA1) ∧ decode 0x01000001 = .error (.unusedOperandBits 0x01 1) ∧
    decode 0x12001000 = .error (.unusedOperandBits 0x12 0x1000) ∧
    decode 0x40000002 = .error (.unusedOperandBits 0x40 2) ∧ decode 0x41010000 = .error (.unusedOperandBits 0x41 0x10000) :=
  ⟨rfl, rfl, rfl, rfl, rfl, rfl, rfl, rfl, rfl, rfl, rfl⟩

theorem test_encode : encode (.packTcf 1 3 0 5) = 0x10001305 ∧ encode (.ctColorAt .bank1 7) = 0x33000007 ∧
    encode (.bpPush 0x801 12) = 0x5000C801 := by decide

/-! ### States for the tests -/

/-- The reset state with bank 0 holding these colours. -/
def withColors (colors : List Color) (rsv sealed : Bool) : State :=
  { State.reset with ct0 := { colors := colors, rsv := rsv, sealed := sealed } }

/-- Red, green, blue (95 P1). -/
def rgb : List Color := [0xFF0000#24, 0x00FF00#24, 0x0000FF#24]

/-- The greys `0 .. n - 1` (95 T2). -/
def greys (n : Nat) : List Color := (List.range n).map fun i => BitVec.ofNat 24 (i * 0x010101)

/-- 95 P1 before its fourth LZW_PIX: codes (4,3), (0,3), (1,3) pushed, `[0,1] = 6`, `[1,2] = 7`, buffer `[2]`. -/
def midStream : State :=
  { withColors rgb false true with
    out := [0x44#8],
    lzw := { phase := .run, sf := 1, bank := .bank0, m := 2, w := 3, next := 8, dict := [([0, 1], 6), ([1, 2], 7)],
             buf := [2] },
    bp := { nbits := 1, acc := 0 } }

/-- As `midStream`, with `[1]` in the buffer: the extension `[1, 2]` is known. -/
def midKnown : State := { midStream with lzw := { midStream.lzw with buf := [1] } }

/-- A stream just opened on the empty bank 0 (95 L11): `sf = 0`. -/
def opened : State :=
  { State.reset with
    lzw := { Lzw.reset with phase := .first, dict := [] },
    bp := { nbits := 3, acc := 4 } }

/-- As `opened`, on a bank that has grown to three colours since (70_reset_and_hazards): indices 2 and up are beyond the
stream. -/
def openedGrown : State := { opened with ct0 := { colors := rgb, rsv := false, sealed := false } }

/-- A running stream whose `next` stands at 4096: the next miss clears (42_lzw R175). -/
def atMaxCodes : State := { midStream with lzw := { midStream.lzw with w := 12, next := 4096, dict := [] } }

/-- A block with IndexOutOfRange standing. -/
def faulted : State := { midStream with fault := some .indexOutOfRange }

/-- 43 B4 (95): seven bits pending, all ones. -/
def pending7 : State := { State.reset with bp := { nbits := 7, acc := 0x7F } }

/-- The state a command leaves. -/
def after (i : Instr) (s : State) : State :=
  match exec i s with
  | .next t => t
  | .fault _ => s
  | .refused _ => s

/-- The state one step leaves when the host issues that word next. -/
def afterWord (w : Nat) (s : State) : State :=
  match step (s.withFetchWord 32 w) with
  | .next t => t
  | .fault _ => s
  | .refused _ => s

/-- The response that step gives. -/
def answerTo (w : Nat) (s : State) : Option Word := (afterWord w s).port.responses.getLast?

/-! ### One step per command (95) -/

theorem test_sysNop : answerTo 0x00000000 midStream = some 0x00000000 ∧ (afterWord 0x00000000 midStream).lzw = midStream.lzw := by
  decide
theorem test_sysReset : answerTo 0x01000000 faulted = some 0x00000000 ∧ afterWord 0x01000000 faulted =
    { State.reset with port := { commands := [], responses := [0#32] } } := by decide
/-- 95 P1: RUN, `w = 4`, `m = 2`, `sf = 1`, bank 0, `nbits = 4`; the state one LZW_PIX after `midStream`. -/
theorem test_sysStatus : answerTo 0x02000000 (afterWord 0x42FF0000 midStream) = some 0x00010492 ∧
    answerTo 0x02000000 State.reset = some 0x0000008C := by decide
theorem test_packTcf : answerTo 0x10001305 State.reset = some 0x000000B5 ∧ answerTo 0x10000700 State.reset = some 0x00000070 := by
  decide
/-- 95 F6, F7: the check is of each sub-field against its own width. -/
theorem test_packTcf_overflow : answerTo 0x10001805 State.reset = some 0x82000000 ∧
    answerTo 0x10002305 State.reset = some 0x82000000 := by decide
theorem test_packIcf : answerTo 0x11001117 State.reset = some 0x000000E7 ∧ answerTo 0x11000100 State.reset = some 0x00000040 := by
  decide
theorem test_packGcf : answerTo 0x12000201 State.reset = some 0x00000009 ∧ answerTo 0x12000010 State.reset = some 0x00000002 := by
  decide
/-- 95 F21 to F23: BadDisposal, and FieldOverflow before it. -/
theorem test_packGcf_faults : answerTo 0x12000400 State.reset = some 0x8C000000 ∧
    answerTo 0x12000800 State.reset = some 0x82000000 ∧ answerTo 0x12000420 State.reset = some 0x82000000 := by decide
/-- 95 T5: CT_NEW empties and unseals. -/
theorem test_ctNew : answerTo 0x20000000 midStream = some 0 ∧ (afterWord 0x20000000 midStream).ct0 = Bank.empty ∧
    (afterWord 0x30000000 midStream).ct0 = midStream.ct0 := by decide
theorem test_ctInsert : answerTo 0x21000001 (withColors rgb false false) = some 3 ∧
    (afterWord 0x21000001 (withColors rgb false false)).ct0.colors = rgb ++ [0x000001#24] := by decide
/-- 95 T2, T5: duplicate before full; sealed before duplicate; 255 greys and the reserved slot are full. -/
theorem test_ctInsert_faults : answerTo 0x2100FF00 (withColors rgb false false) = some 0x83000000 ∧
    answerTo 0x2100FF00 (withColors rgb false true) = some 0x87000000 ∧
    answerTo 0x21FFFFFF (withColors (greys 255) true false) = some 0x86000000 := by decide +kernel
theorem test_ctLookup : answerTo 0x220000FF (withColors rgb false false) = some 2 ∧
    answerTo 0x22000000 (withColors rgb false false) = some 0x84000000 := by decide
/-- 95 T3: a stored colour, the black padding, and the first index past the declared length. -/
theorem test_ctColorAt : answerTo 0x23000001 (withColors rgb false false) = some 0x0000FF00 ∧
    answerTo 0x23000003 (withColors rgb false false) = some 0 ∧
    answerTo 0x23000004 (withColors rgb false false) = some 0x85000000 := by decide
theorem test_ctReserve : answerTo 0x24000000 (withColors rgb false false) = some 0 ∧
    (afterWord 0x24000000 (withColors rgb false false)).ct0.rsv = true ∧
    answerTo 0x24000000 (withColors rgb false true) = some 0x87000000 ∧
    answerTo 0x24000000 (withColors rgb true true) = some 0 := by decide
/-- 95 T4: three colours give 3; a fourth colour moves it to 7. -/
theorem test_ctTransp : answerTo 0x25000000 (withColors rgb false false) = some 3 ∧
    answerTo 0x25000000 (withColors (greys 4) true false) = some 7 ∧
    answerTo 0x25000000 (withColors (greys 256) false false) = some 0x86000000 := by decide +kernel
/-- 95 T1 at 3 colours, at 4 with the reserve flag, and at 129. -/
theorem test_ctSize : answerTo 0x26000000 (withColors rgb false false) = some 1 ∧
    answerTo 0x26000000 (withColors (greys 4) true false) = some 2 ∧
    answerTo 0x26000000 (withColors (greys 129) false false) = some 7 := by decide +kernel
/-- 95 T1 at 0, at 2 with the flag, and at 17. -/
theorem test_ctDeclen : answerTo 0x27000000 State.reset = some 2 ∧ answerTo 0x27000000 (withColors (greys 2) true false) = some 4 ∧
    answerTo 0x27000000 (withColors (greys 17) false false) = some 32 := by decide +kernel
theorem test_ctBytelen : answerTo 0x28000000 (withColors rgb false false) = some 0x0C ∧
    answerTo 0x28000000 (withColors (greys 256) false false) = some 0x300 := by decide +kernel
theorem test_ctUlen : answerTo 0x29000000 (withColors rgb true false) = some 3 ∧ answerTo 0x39000000 (withColors rgb true false) = some 0 := by
  decide
/-- 95 P1: three colours, then one black; red first. -/
theorem test_ctSerialize : answerTo 0x2A000000 (withColors rgb false false) = some 0x0C ∧
    (afterWord 0x2A000000 (withColors rgb false false)).out = [0xFF, 0, 0, 0, 0xFF, 0, 0, 0, 0xFF, 0, 0, 0] ∧
    (afterWord 0x2A000000 (withColors rgb false false)).ct0.sealed = true ∧
    answerTo 0x2A000000 opened = some 0x88000000 := by decide
/-- 95 P1: the clear code (4,3) is pending. -/
theorem test_lzwStart : answerTo 0x40000000 (withColors rgb false true) = some 2 ∧
    (afterWord 0x40000000 (withColors rgb false true)).bp = { nbits := 3, acc := 4 } ∧
    (afterWord 0x40000000 (withColors rgb false true)).lzw.sf = 1 ∧ answerTo 0x40000000 opened = some 0x88000000 := by decide
/-- 95 P1, the fourth index: (2,3) leaves, `[2,0] = 8 = 2^3` and the width becomes 4. -/
theorem test_lzwSym : answerTo 0x41000000 midStream = some 0 ∧ (afterWord 0x41000000 midStream).lzw.w = 4 ∧
    (afterWord 0x41000000 midStream).lzw.next = 9 ∧ (afterWord 0x41000000 midStream).bp = { nbits := 4, acc := 4 } ∧
    (afterWord 0x41000002 midKnown).lzw.buf = [1, 2] := by decide
/-- 42_lzw R175: all codes used, so (2,12) and the clear code (4,12) leave, and the table is as at the start. -/
theorem test_lzwSym_clears : (afterWord 0x41000000 atMaxCodes).out = [0x44, 0x04, 0x80, 0x00] ∧
    (afterWord 0x41000000 atMaxCodes).bp = { nbits := 1, acc := 0 } ∧
    (afterWord 0x41000000 atMaxCodes).lzw = { midStream.lzw with next := 6, dict := [], buf := [0] } := by decide
/-- 95 P1 (found), 95 L11 and 70 (an index beyond the stream though in the bank), and a colour not in the bank. -/
theorem test_lzwPix : answerTo 0x4200FF00 openedGrown = some 1 ∧ answerTo 0x420000FF openedGrown = some 0x85000000 ∧
    answerTo 0x42000001 openedGrown = some 0x84000000 ∧ (afterWord 0x4200FF00 openedGrown).lzw.buf = [1] := by decide
/-- 95 P1: after the fourth pixel, (0,4) and (5,4) leave as `04 05`. -/
theorem test_lzwEnd : (afterWord 0x43000000 (afterWord 0x42FF0000 midStream)).out = [0x44, 0x04, 0x05] ∧
    (afterWord 0x43000000 (afterWord 0x42FF0000 midStream)).lzw.phase = .idle ∧
    answerTo 0x43000000 opened = some 0x89000000 := by decide
theorem test_lzwNext : answerTo 0x44000000 midStream = some 8 ∧ answerTo 0x44000000 State.reset = some 6 := by decide
/-- 95 B4: nineteen ones. -/
theorem test_bpPush : (afterWord 0x5000CFFF pending7).out = [0xFF, 0xFF] ∧
    (afterWord 0x5000CFFF pending7).bp = { nbits := 3, acc := 7 } := by decide
/-- 95 B3. -/
theorem test_bpPush_faults : answerTo 0x50001000 State.reset = some 0x8A000000 ∧ answerTo 0x5000D000 State.reset = some 0x8A000000 ∧
    answerTo 0x50002004 State.reset = some 0x8B000000 ∧ answerTo 0x50002001 opened = some 0x88000000 := by decide
theorem test_bpFlush : (afterWord 0x51000000 pending7).out = [0x7F] ∧ (afterWord 0x51000000 pending7).bp = { nbits := 0, acc := 0 } ∧
    (afterWord 0x51000000 State.reset).out = [] := by decide
/-- 95 F9: an illegal word; 95 L11: a standing fault answers first, an illegal word included (60_exceptions R255). -/
theorem test_illegal : answerTo 0x10011305 State.reset = some 0x81000000 ∧ answerTo 0x10011305 faulted = some 0x85000000 ∧
    answerTo 0x41000001 faulted = some 0x85000000 := by decide

/-! ### The functions the spec gives beside the commands -/

/-- 95 L2 and L6. -/
theorem test_compress : compress 1 [0, 1, 2, 0] = some [(4, 3), (0, 3), (1, 3), (2, 3), (0, 4), (5, 4)] ∧
    compress 0 [1, 0, 1, 0, 1, 0, 1] = some [(4, 3), (1, 3), (0, 3), (6, 3), (8, 4), (5, 4)] := by decide
theorem test_compressRegisters : compressRegisters 0 [1, 0, 1, 0, 1, 0, 1] = some [(4, 3), (1, 3), (0, 3), (6, 3), (8, 4), (5, 4)] := by
  decide
/-- 95 L2's bytes. -/
theorem test_packLsb : packLsb [(4, 3), (0, 3), (1, 3), (2, 3), (0, 4), (5, 4)] = [0x44, 0x04, 0x05] := by decide
theorem test_subblocks : subblocks [] = [0x00] ∧ subblocks [0x0A, 0x0B] = [0x02, 0x0A, 0x0B, 0x00] := by decide

/-! ### The invariant in the states above -/

theorem midStream_inv : midStream.Inv := by
  unfold State.Inv Bank.Inv Lzw.Inv Dict.wf Packer.Inv
  simp only [Lzw.entryInv]
  decide
theorem midKnown_inv : midKnown.Inv := by
  unfold State.Inv Bank.Inv Lzw.Inv Dict.wf Packer.Inv
  simp only [Lzw.entryInv]
  decide
theorem opened_inv : opened.Inv := by
  unfold State.Inv Bank.Inv Lzw.Inv Dict.wf Packer.Inv
  simp only [Lzw.entryInv]
  decide
theorem openedGrown_inv : openedGrown.Inv := by
  unfold State.Inv Bank.Inv Lzw.Inv Dict.wf Packer.Inv
  simp only [Lzw.entryInv]
  decide
theorem pending7_inv : pending7.Inv := by
  unfold State.Inv Bank.Inv Lzw.Inv Dict.wf Packer.Inv
  simp only [Lzw.entryInv]
  decide
theorem rgb_inv (rsv sealed : Bool) : (withColors rgb rsv sealed).ct0.Inv := by
  unfold Bank.Inv
  revert rsv sealed
  decide
theorem greys255_inv : (withColors (greys 255) true false).ct0.Inv := by
  unfold Bank.Inv
  decide +kernel

/-! ### Witnesses: for every statement of Certificates/Slice0/Obligations.lean with hypotheses, values that meet them, clause by
clause at the ends of their ranges -/

/-- The operand fields format Z refuses (`EncodedZ`, in the statement of every format Z command). -/
theorem witness_EncodedZ : (0x000001#24 : BitVec 24) ≠ 0#24 ∧ (0x800000#24 : BitVec 24) ≠ 0#24 := by decide

theorem witness_DecodeOfEncodeIsInstr : (Instr.bpPush 4095 15).wellFormed = true ∧ (Instr.packGcf 15 15 15).wellFormed = true ∧
    (Instr.ctColorAt .bank1 65535).wellFormed = true ∧ (Instr.ctInsert .bank1 0xFFFFFF#24).wellFormed = true := by decide

theorem witness_EncodeOfDecodeIsWord : decode 0x5000FFFF = .ok (.bpPush 4095 15) ∧ decode 0x3A000000 = .ok (.ctSerialize .bank1) :=
  ⟨rfl, rfl⟩

theorem witness_StepRunsDecodedCommand :
    ((midStream.issueNext 0x43000000).port.commands = 0x43000000 :: [] ∧ decode 0x43000000 = .ok .lzwEnd) ∧
    ((midStream.issueNext 0xA1000000).port.commands = 0xA1000000 :: [] ∧
      decode 0xA1000000 = .error (.unassignedOpcode 0xA1)) ∧
    State.reset.port.commands = [] := ⟨⟨rfl, rfl⟩, ⟨rfl, rfl⟩, rfl⟩

theorem witness_IllegalWordRaisesIllegalCommand :
    (midStream.issueNext 0x10011305).port.commands = 0x10011305 :: [] ∧
    decode 0x10011305 = .error (.unusedOperandBits 0x10 0x11305) ∧ (midStream.issueNext 0x10011305).fault = none ∧
    (faulted.issueNext 0x10011305).port.commands = 0x10011305 :: [] ∧
    (faulted.issueNext 0x10011305).fault = some .indexOutOfRange := ⟨rfl, rfl, rfl, rfl, rfl⟩

theorem witness_EveryCommandTakesOneWord :
    exec .sysReset (midStream.issueNext 0x01000000) = .next (after .sysReset (midStream.issueNext 0x01000000)) ∧
    exec .lzwNext (midStream.issueNext 0x44000000) = .next (after .lzwNext (midStream.issueNext 0x44000000)) := ⟨rfl, rfl⟩

theorem witness_StepKeepsInvariants : midStream.Inv ∧
    step (midStream.withFetchWord 32 0x41000000) = .next (afterWord 0x41000000 midStream) ∧
    (midStream.withFetchWord 32 0x41000000).Inv := ⟨midStream_inv, rfl, midStream_inv⟩

theorem witness_EveryCommandCompletesInGoodStates : midStream.Inv ∧ opened.Inv ∧ pending7.Inv :=
  ⟨midStream_inv, opened_inv, pending7_inv⟩

theorem witness_BankInvariantsAreKept :
    exec (.ctInsert .bank0 0x000001#24) (withColors rgb true false) =
      .next (after (.ctInsert .bank0 0x000001#24) (withColors rgb true false)) ∧
    ((withColors rgb true false).bank .bank0).Inv ∧ ((withColors rgb true false).bank .bank0).rsv = true ∧
    exec (.ctSerialize .bank0) (withColors rgb true true) = .next (after (.ctSerialize .bank0) (withColors rgb true true)) ∧
    ((withColors rgb true true).bank .bank0).sealed = true ∧ Instr.ctSerialize .bank0 ≠ .ctNew .bank0 ∧
    Instr.ctSerialize .bank0 ≠ .sysReset ∧ Instr.ctInsert .bank0 0x000001#24 ≠ .ctNew .bank0 ∧
    Instr.ctInsert .bank0 0x000001#24 ≠ .sysReset :=
  ⟨rfl, rgb_inv true false, rfl, rfl, rfl, by decide, by decide, by decide, by decide⟩

theorem witness_EmittableCodesFitTheWidth : midStream.lzw.Inv ∧ midStream.lzw.phase = .run ∧
    midStream.lzw.codeOf [1, 2] = some 7 ∧ midStream.lzw.codeOf [3] = some 3 :=
  ⟨midStream_inv.2.2.1, rfl, rfl, rfl⟩

theorem witness_FaultEntryWritesOnlyFault : midStream.fault = none ∧
    exec (.lzwSym 4) midStream = .next (after (.lzwSym 4) midStream) ∧
    (after (.lzwSym 4) midStream).fault = some .indexOutOfRange := ⟨rfl, rfl, rfl⟩

theorem witness_StandingFaultRefusesCommands : faulted.fault = some .indexOutOfRange ∧ Instr.lzwSym 1 ≠ .sysReset :=
  ⟨rfl, by decide⟩

theorem witness_OnlyResetLeavesFault : faulted.fault = some .indexOutOfRange ∧
    exec .sysReset faulted = .next (after .sysReset faulted) ∧ (after .sysReset faulted).fault ≠ some .indexOutOfRange :=
  ⟨rfl, rfl, by decide⟩

/-- One command for each fault a command can raise. -/
theorem witness_FaultsComeFromTheirCommands :
    (after (.packTcf 2 0 0 0) State.reset).fault = some .fieldOverflow ∧
    (after (.ctInsert .bank0 0xFF0000#24) (withColors rgb false false)).fault = some .duplicateColor ∧
    (after (.ctLookup .bank0 0x000000#24) State.reset).fault = some .notFound ∧
    (after (.ctColorAt .bank0 2) State.reset).fault = some .indexOutOfRange ∧
    (after (.ctTransp .bank0) (withColors (greys 256) false false)).fault = some .tableFull ∧
    (after (.ctReserve .bank0) (withColors rgb false true)).fault = some .tableSealed ∧
    (after (.lzwSym 0) State.reset).fault = some .badPhase ∧ (after .lzwEnd opened).fault = some .emptyInput ∧
    (after (.bpPush 0 13) State.reset).fault = some .badWidth ∧ (after (.bpPush 4 2) State.reset).fault = some .codeTooWide ∧
    (after (.packGcf 4 0 0) State.reset).fault = some .badDisposal ∧ State.reset.fault = none := by decide +kernel

theorem witness_EveryCommandAnswersOnce : exec .sysStatus midStream = .next (after .sysStatus midStream) ∧
    exec .sysStatus faulted = .next (after .sysStatus faulted) := ⟨rfl, rfl⟩

theorem witness_SysNopDoesNothing : midStream.fault = none ∧ faulted.fault = some .indexOutOfRange := ⟨rfl, rfl⟩

theorem witness_SysResetRestoresReset : (1#24 : BitVec 24) ≠ 0#24 ∧ (0xFFFFFF#24 : BitVec 24) ≠ 0#24 := by decide

theorem witness_SysStatusFields : midStream.fault = none ∧ midStream.Inv ∧ pending7.fault = none ∧ pending7.Inv :=
  ⟨rfl, midStream_inv, rfl, pending7_inv⟩

theorem witness_LzwNextReadsNext : midStream.fault = none ∧ midStream.Inv ∧ opened.fault = none ∧ opened.Inv :=
  ⟨rfl, midStream_inv, rfl, opened_inv⟩

theorem witness_PackTcfPacksFields : State.reset.fault = none ∧ (1 < 2 ∧ 7 < 8 ∧ 1 < 2 ∧ 7 < 8) ∧
    ¬ (2 < 2 ∧ 7 < 8 ∧ 1 < 2 ∧ 7 < 8) ∧ ¬ (1 < 2 ∧ 8 < 8 ∧ 1 < 2 ∧ 7 < 8) ∧
    (0x010000#24 : BitVec 24).extractLsb' 16 8 ≠ 0#8 := by decide

theorem witness_PackIcfPacksFields : State.reset.fault = none ∧ (1 < 2 ∧ 1 < 2 ∧ 1 < 2 ∧ 7 < 8) ∧
    ¬ (1 < 2 ∧ 2 < 2 ∧ 1 < 2 ∧ 7 < 8) ∧ ¬ (1 < 2 ∧ 1 < 2 ∧ 1 < 2 ∧ 8 < 8) ∧
    (0x800000#24 : BitVec 24).extractLsb' 16 8 ≠ 0#8 := by decide

theorem witness_PackGcfPacksFields : State.reset.fault = none ∧ (3 ≤ 3 ∧ 1 < 2 ∧ 1 < 2) ∧
    (4 < 8 ∧ 1 < 2 ∧ 1 < 2 ∧ 3 < 4) ∧ (7 < 8 ∧ 3 < 7) ∧ ¬ (8 < 8 ∧ 1 < 2 ∧ 1 < 2) ∧ ¬ (4 < 8 ∧ 2 < 2 ∧ 1 < 2) ∧
    (0x001000#24 : BitVec 24).extractLsb' 12 12 ≠ 0#12 := by decide

theorem witness_PackedFieldsReadBack : (1 < 2 ∧ 7 < 8) ∧ packFields (tcfFields 1 7 1 7) = 255 ∧
    packFields (icfFields 1 1 1 7) = 231 ∧ bitsOf 231 4 3 = 0 ∧ packFields (gcfFields 3 1 1) = 15 := by decide

theorem witness_DerivedSizesAreInRange : Bank.empty.Inv ∧ (withColors (greys 255) true false).ct0.Inv ∧
    (withColors (greys 255) true false).ct0.rsv = true :=
  ⟨⟨by decide, by decide⟩, greys255_inv, rfl⟩

theorem witness_DeclaredLengthTable : (256 : Nat) ≤ 256 ∧ (255 : Nat) ≤ 255 ∧ (0 : Nat) ≤ 255 := by decide

theorem witness_CtNewEmptiesBank : midStream.fault = none ∧ (midStream.bank .bank0).sealed = true := ⟨rfl, rfl⟩

/-- Sealed; a colour that is there; 256 colours, and 255 with the slot reserved; 255 colours, and 254 with the slot. -/
theorem witness_CtInsertAssignsNextIndex :
    ((withColors rgb false true).fault = none ∧ (withColors rgb false true).ct0.sealed = true) ∧
    (0x0000FF#24 ∈ (withColors rgb false false).ct0.colors ∧ (withColors rgb false false).ct0.sealed = false) ∧
    (0x000001#24 ∉ (withColors (greys 256) false false).ct0.colors ∧ 256 - false.toNat ≤ (withColors (greys 256) false false).ct0.n) ∧
    (0x000001#24 ∉ (withColors (greys 255) true false).ct0.colors ∧ 256 - true.toNat ≤ (withColors (greys 255) true false).ct0.n) ∧
    (0x000001#24 ∉ (withColors (greys 255) false false).ct0.colors ∧ (withColors (greys 255) false false).ct0.n < 256 - false.toNat) ∧
    (0x000001#24 ∉ (withColors (greys 254) true false).ct0.colors ∧ (withColors (greys 254) true false).ct0.n < 256 - true.toNat) := by
  decide +kernel

theorem witness_CtLookupFindsIndex : (withColors rgb false true).fault = none ∧ (withColors rgb false true).ct0.Inv ∧
    (withColors rgb false true).ct0.colors[2]? = some 0x0000FF#24 ∧ 0x000000#24 ∉ (withColors rgb false true).ct0.colors :=
  ⟨rfl, rgb_inv false true, rfl, by decide⟩

/-- The last colour, the one padding index, and the first index past the declared length 4. -/
theorem witness_CtColorAtReadsColour : (withColors rgb false false).fault = none ∧
    (withColors rgb false false).ct0.colors[2]? = some 0x0000FF#24 ∧
    ((withColors rgb false false).ct0.n ≤ 3 ∧ 3 < (withColors rgb false false).ct0.declaredLength) ∧
    (withColors rgb false false).ct0.declaredLength ≤ 4 ∧ (0x010000#24 : BitVec 24).extractLsb' 16 8 ≠ 0#8 := by decide

theorem witness_CtReserveSetsFlag :
    ((withColors rgb true true).fault = none ∧ (withColors rgb true true).ct0.rsv = true) ∧
    ((withColors rgb false true).ct0.rsv = false ∧ (withColors rgb false true).ct0.sealed = true) ∧
    ((withColors (greys 256) false false).ct0.rsv = false ∧ (withColors (greys 256) false false).ct0.sealed = false ∧
      256 ≤ (withColors (greys 256) false false).ct0.n) ∧
    ((withColors (greys 255) false false).ct0.rsv = false ∧ (withColors (greys 255) false false).ct0.sealed = false ∧
      (withColors (greys 255) false false).ct0.n ≤ 255) := by decide +kernel

theorem witness_CtTranspReservesAndReads :
    ((withColors (greys 255) true false).fault = none ∧ (withColors (greys 255) true false).ct0.rsv = true ∧
      (withColors (greys 255) true false).ct0.n ≤ 255) ∧
    ((withColors rgb false true).ct0.rsv = false ∧ (withColors rgb false true).ct0.sealed = true) ∧
    ((withColors (greys 256) false false).ct0.rsv = false ∧ (withColors (greys 256) false false).ct0.sealed = false ∧
      256 ≤ (withColors (greys 256) false false).ct0.n) ∧
    ((withColors (greys 255) false false).ct0.rsv = false ∧ (withColors (greys 255) false false).ct0.sealed = false ∧
      (withColors (greys 255) false false).ct0.n ≤ 255) := by decide +kernel

theorem witness_CtSizeReads : (withColors (greys 255) true false).fault = none ∧ ((withColors (greys 255) true false).bank .bank0).Inv :=
  ⟨rfl, greys255_inv⟩

theorem witness_CtSerializeEmitsTable : (opened.fault = none ∧ opened.lzw.phase ≠ .idle) ∧
    ((withColors rgb true false).fault = none ∧ (withColors rgb true false).lzw.phase = .idle ∧
      ((withColors rgb true false).bank .bank0).Inv) :=
  ⟨⟨rfl, by decide⟩, rfl, rfl, rgb_inv true false⟩

/-- The most colours a bank can be loaded with, and none. -/
theorem witness_LoadedColoursRoundTrip : State.reset.fault = none ∧ State.reset.lzw.phase = .idle ∧
    (greys 256).Nodup ∧ (greys 256).length ≤ 256 ∧ ([] : List Color).Nodup ∧ rgb.Nodup ∧ rgb[2]? = some 0x0000FF#24 ∧
    rgb.length ≤ 3 ∧ 3 < declaredLength rgb.length false := by decide +kernel

theorem witness_BpPushAppendsCode : (opened.fault = none ∧ opened.lzw.phase ≠ .idle) ∧
    (pending7.fault = none ∧ pending7.lzw.phase = .idle ∧ ¬ (2 ≤ 1 ∧ 1 ≤ 12) ∧ ¬ (2 ≤ 13 ∧ 13 ≤ 12)) ∧
    (2 ≤ 2 ∧ 2 ≤ 12 ∧ 2 ^ 2 ≤ 4) ∧ (4095 < 2 ^ 12 ∧ pending7.bp.Inv) ∧
    (0x010000#24 : BitVec 24).extractLsb' 16 8 ≠ 0#8 := by
  unfold Packer.Inv
  decide

theorem witness_BpFlushPadsToByte : (opened.fault = none ∧ opened.lzw.phase ≠ .idle) ∧
    (pending7.fault = none ∧ pending7.lzw.phase = .idle ∧ pending7.bp.Inv ∧ 0 < pending7.bp.nbits) ∧
    (State.reset.bp.Inv ∧ State.reset.bp.nbits = 0) := by
  unfold Packer.Inv
  decide

theorem witness_PushesThenFlushArePackLsb : State.reset.bp.nbits = 0 ∧ State.reset.bp.acc = 0 ∧
    ∀ c ∈ [(0x003, 2), (0xFFF, 12)], c.1 < 2 ^ c.2 := by decide

theorem witness_LzwStartOpensStream : (opened.fault = none ∧ opened.lzw.phase ≠ .idle) ∧
    ((withColors rgb false true).fault = none ∧ (withColors rgb false true).lzw.phase = .idle ∧
      ((withColors rgb false true).bank .bank0).Inv ∧ max 2 (1 + ((withColors rgb false true).bank .bank0).sizeField) = 2) ∧
    (((withColors (greys 255) true false).bank .bank0).Inv ∧
      max 2 (1 + ((withColors (greys 255) true false).bank .bank0).sizeField) = 8) ∧
    max 2 (1 + ((withColors (greys 100) false false).bank .bank0).sizeField) = 7 ∧
    (0x000002#24 : BitVec 24).extractLsb' 1 23 ≠ 0#23 :=
  ⟨⟨rfl, by decide⟩, ⟨rfl, rfl, rgb_inv false true, by decide⟩, ⟨greys255_inv, by decide +kernel⟩, by decide +kernel, by decide⟩

/-- A fresh block, and one whose earlier stream left a dictionary and pending bits. -/
theorem witness_LzwStartForgetsEarlierStream : (withColors rgb false true).fault = none ∧ midStream.closeStream.fault = none ∧
    (withColors rgb false true).lzw.phase = .idle ∧ midStream.closeStream.lzw.phase = .idle ∧
    (withColors rgb false true).bank .bank0 = midStream.closeStream.bank .bank0 ∧
    (withColors rgb false true).lzw.dict ≠ midStream.closeStream.lzw.dict := by decide

theorem witness_LzwSymTakesOneIndex :
    (State.reset.fault = none ∧ State.reset.lzw.phase = .idle) ∧
    (midStream.lzw.phase ≠ .idle ∧ 2 ^ (midStream.lzw.sf + 1) ≤ 4) ∧
    (opened.lzw.phase = .first ∧ 1 < 2 ^ (opened.lzw.sf + 1)) ∧
    (midKnown.lzw.phase = .run ∧ 2 < 2 ^ (midKnown.lzw.sf + 1) ∧ midKnown.lzw.known (midKnown.lzw.buf ++ [2]) = true) ∧
    (midStream.lzw.phase = .run ∧ 3 < 2 ^ (midStream.lzw.sf + 1) ∧ midStream.lzw.known (midStream.lzw.buf ++ [3]) = false ∧
      midStream.lzw.codeOf midStream.lzw.buf = some 2 ∧ midStream.lzw.next ≠ 4096 ∧ midStream.lzw.next = 2 ^ midStream.lzw.w) ∧
    (atMaxCodes.lzw.phase = .run ∧ 3 < 2 ^ (atMaxCodes.lzw.sf + 1) ∧ atMaxCodes.lzw.known (atMaxCodes.lzw.buf ++ [3]) = false ∧
      atMaxCodes.lzw.codeOf atMaxCodes.lzw.buf = some 2 ∧ atMaxCodes.lzw.next = 4096) ∧
    (0x010000#24 : BitVec 24).extractLsb' 16 8 ≠ 0#8 := by decide

theorem witness_LzwPixIsLookupThenSym :
    (State.reset.fault = none ∧ State.reset.lzw.phase = .idle) ∧
    (openedGrown.fault = none ∧ openedGrown.lzw.phase ≠ .idle ∧ 0x000001#24 ∉ (openedGrown.bank openedGrown.lzw.bank).colors) ∧
    openedGrown.Inv ∧
    ((openedGrown.bank openedGrown.lzw.bank).colors[2]? = some 0x0000FF#24 ∧ 2 ^ (openedGrown.lzw.sf + 1) ≤ 2) ∧
    ((openedGrown.bank openedGrown.lzw.bank).colors[1]? = some 0x00FF00#24 ∧ 1 < 2 ^ (openedGrown.lzw.sf + 1)) :=
  ⟨by decide, by decide, openedGrown_inv, by decide, by decide⟩

theorem witness_LzwEndClosesStream : (State.reset.fault = none ∧ State.reset.lzw.phase = .idle) ∧
    (opened.fault = none ∧ opened.lzw.phase = .first) ∧
    (midStream.fault = none ∧ midStream.lzw.phase = .run ∧ midStream.lzw.codeOf midStream.lzw.buf = some 2) := by decide

/-- Each transition, and each refusal, of 42_lzw R180. -/
theorem witness_PhaseMachine :
    (exec (.lzwStart .bank0) (withColors rgb false true) = .next (after (.lzwStart .bank0) (withColors rgb false true)) ∧
      (after (.lzwStart .bank0) (withColors rgb false true)).fault = none) ∧
    (exec (.lzwSym 1) opened = .next (after (.lzwSym 1) opened) ∧ (after (.lzwSym 1) opened).fault = none ∧
      opened.lzw.phase = .first) ∧
    (exec (.lzwPix 0xFF0000#24) midStream = .next (after (.lzwPix 0xFF0000#24) midStream) ∧
      (after (.lzwPix 0xFF0000#24) midStream).fault = none ∧ midStream.lzw.phase = .run) ∧
    (exec .lzwEnd midStream = .next (after .lzwEnd midStream) ∧ (after .lzwEnd midStream).fault = none) ∧
    (exec .bpFlush pending7 = .next (after .bpFlush pending7) ∧ (after .bpFlush pending7).fault = none) ∧
    (exec .lzwNext midStream = .next (after .lzwNext midStream) ∧ (after .lzwNext midStream).fault = none) ∧
    State.reset.lzw.phase = .idle ∧ opened.lzw.phase ≠ .idle :=
  ⟨⟨rfl, rfl⟩, ⟨rfl, rfl, rfl⟩, ⟨rfl, rfl, rfl⟩, ⟨rfl, rfl⟩, ⟨rfl, rfl⟩, ⟨rfl, rfl⟩, rfl, by decide⟩

theorem witness_StreamIsPackedCompress : (withColors rgb false true).fault = none ∧ (withColors rgb false true).lzw.phase = .idle ∧
    ((withColors rgb false true).bank .bank0).Inv ∧ [0, 1, 2, 0] ≠ [] ∧
    ∀ k ∈ [0, 1, 2, 3], k < 2 ^ (((withColors rgb false true).bank .bank0).sizeField + 1) :=
  ⟨rfl, rfl, rgb_inv false true, by decide, by decide⟩

theorem witness_RegisterFormEmitsSameCodes : 7 ≤ 7 ∧ [255, 0, 255] ≠ [] ∧ ∀ k ∈ [255, 0, 255], k < 2 ^ (7 + 1) := by decide

theorem witness_OutputOnlyGrows : exec .sysReset midStream = .next (after .sysReset midStream) ∧
    exec (.bpPush 4095 12) pending7 = .next (after (.bpPush 4095 12) pending7) ∧ Instr.bpPush 4095 12 ≠ .sysReset ∧
    exec .sysStatus midStream = .next (after .sysStatus midStream) ∧ ¬ writesStream .sysStatus :=
  ⟨rfl, rfl, by decide, rfl, by simp [writesStream]⟩

theorem witness_BytesPerCommand : (midStream.Inv ∧ midStream.fault = none) ∧ (pending7.Inv ∧ pending7.fault = none) ∧
    exec .lzwEnd midStream = .next (after .lzwEnd midStream) ∧ (after .lzwEnd midStream).fault = none ∧
    exec (.bpPush 4095 12) pending7 = .next (after (.bpPush 4095 12) pending7) ∧
    exec .bpFlush pending7 = .next (after .bpFlush pending7) ∧
    exec (.ctSerialize .bank1) pending7 = .next (after (.ctSerialize .bank1) pending7) ∧
    exec (.lzwStart .bank1) pending7 = .next (after (.lzwStart .bank1) pending7) ∧
    exec (.lzwSym 3) midStream = .next (after (.lzwSym 3) midStream) ∧
    exec (.lzwPix 0xFF0000#24) midStream = .next (after (.lzwPix 0xFF0000#24) midStream) :=
  ⟨⟨midStream_inv, rfl⟩, ⟨pending7_inv, rfl⟩, rfl, rfl, rfl, rfl, rfl, rfl, rfl, rfl⟩

theorem witness_OnlyBankCommandsWriteBank : exec (.ctNew .bank1) midStream = .next (after (.ctNew .bank1) midStream) ∧
    ¬ writesBank (.ctNew .bank1) .bank0 ∧ Instr.ctNew .bank1 ≠ .sysReset :=
  ⟨rfl, by simp [writesBank], by decide⟩

theorem witness_OnlyStreamCommandsWriteStream :
    exec (.ctNew .bank1) midStream = .next (after (.ctNew .bank1) midStream) ∧ Instr.ctNew .bank1 ≠ .sysReset ∧
    ¬ writesStream (.ctNew .bank1) ∧ exec .bpFlush pending7 = .next (after .bpFlush pending7) ∧ Instr.bpFlush ≠ .sysReset :=
  ⟨rfl, by decide, by simp [writesStream], rfl, by decide⟩

theorem witness_StreamParametersAreLatched : exec (.ctNew .bank0) midStream = .next (after (.ctNew .bank0) midStream) ∧
    Instr.ctNew .bank0 ≠ .sysReset ∧ ∀ u, Instr.ctNew .bank0 ≠ .lzwStart u := ⟨rfl, by decide, by simp⟩

theorem witness_ReadsChangeNothing :
    exec (.ctLookup .bank0 0x0000FF#24) midStream = .next (after (.ctLookup .bank0 0x0000FF#24) midStream) ∧
    (after (.ctLookup .bank0 0x0000FF#24) midStream).fault = none ∧
    exec .sysStatus midStream = .next (after .sysStatus midStream) ∧ (after .sysStatus midStream).fault = none :=
  ⟨rfl, rfl, rfl, rfl⟩

theorem witness_SubblocksSplitGreedily : List.replicate 300 0xFF#8 ≠ [] ∧ [0x00#8] ≠ [] := by decide

end Sys2Proof.Tests
end

/-! PROOFS of the state family (10_state): the invariant and its parts, what each command leaves unchanged, and the register
form of the code table. Every claim about commands rests on `exec_next_block` and a split of `Effect`. -/

namespace Sys2Proof.Machine

/-! ### What a command that answers did to the block -/

/-- A command but SYS_RESET either leaves the block (a fault raised or answered) or has its effect on it. -/
theorem exec_next_block {i : Instr} {s t : State} (h : exec i s = .next t) (hi : i ≠ .sysReset) :
    SameBlock s t ∨ ∃ s', Effect i s s' ∧ SameBlock s' t := by
  rcases exec_next_cases h with ⟨h', _⟩ | ⟨_, _, rfl⟩ | ⟨_, _, _, rfl⟩ | ⟨_, _, v, s', he, rfl⟩
  · exact absurd h' hi
  · exact .inl ⟨rfl, ⟨rfl, rfl⟩, rfl, rfl⟩
  · exact .inl ⟨rfl, ⟨rfl, rfl⟩, rfl, rfl⟩
  · exact .inr ⟨s', he, rfl, ⟨rfl, rfl⟩, rfl, rfl⟩

/-- SYS_RESET leaves the block of the reset state (44 R231). -/
theorem sysReset_next_block {s t : State} (h : exec .sysReset s = .next t) : SameBlock State.reset t := by
  rw [exec_sysReset] at h
  cases h
  exact ⟨rfl, ⟨rfl, rfl⟩, rfl, rfl⟩

theorem SameTables.bank_eq {s t : State} (h : SameTables s t) (u : BankId) : t.bank u = s.bank u :=
  bank_of_ct h.1 h.2 u

/-- A good state, bank by bank. -/
theorem State.inv_iff (s : State) : s.Inv ↔ (∀ u, (s.bank u).Inv) ∧ s.lzw.Inv ∧ s.bp.Inv := by
  constructor
  · rintro ⟨h0, h1, hl, hb⟩
    exact ⟨fun u => by cases u <;> assumption, hl, hb⟩
  · rintro ⟨hu, hl, hb⟩
    exact ⟨hu .bank0, hu .bank1, hl, hb⟩

/-- The invariant speaks of the block alone. -/
theorem State.Inv.of_sameBlock {s t : State} (hs : s.Inv) (h : SameBlock s t) : t.Inv := by
  obtain ⟨_, ⟨h0, h1⟩, hl, hb⟩ := h
  unfold State.Inv
  rwa [h0, h1, hl, hb]

/-! ### Colour-table banks (10_state R24, R25) -/

/-- Everything the effect of a command can make of bank `u`. -/
inductive BankChange (i : Instr) (u : BankId) (b : Bank) : Bank → Prop where
  | same : BankChange i u b b
  | emptied (hi : i = .ctNew u) : BankChange i u b .empty
  | inserted {c : Color} (hi : i = .ctInsert u c) (hs : b.sealed = false) (hc : c ∉ b.colors)
      (hn : b.n < b.capacity) : BankChange i u b (b.insert c)
  | reserved (hi : i = .ctReserve u ∨ i = .ctTransp u) (hr : b.reserveFault = none) : BankChange i u b b.reserve
  | sealed (hi : i = .ctSerialize u) : BankChange i u b b.seal

theorem BankChange.of_eq {i : Instr} {u : BankId} {b b' : Bank} (h : b' = b) : BankChange i u b b' := h ▸ .same

/-- A write of bank `v` seen from any bank `u`. -/
theorem BankChange.setBank {i : Instr} {v : BankId} {s s' : State} {b : Bank} (hs : SameTables s s')
    (h : BankChange i v (s.bank v) b) (u : BankId) : BankChange i u (s.bank u) ((s'.setBank v b).bank u) := by
  by_cases hu : u = v
  · subst hu
    rwa [setBank_bank_same]
  · rw [setBank_bank_other _ _ hu]
    exact .of_eq (hs.bank_eq u)

theorem takeIndex_sameTables {s t : State} {k : Nat} (h : s.takeIndex k = some t) : SameTables s t := by
  obtain ⟨_, h0, h1, _⟩ := takeIndex_frame h
  exact ⟨h0, h1⟩

theorem Effect.bankChange {i : Instr} {s t : State} (h : Effect i s t) (u : BankId) :
    BankChange i u (s.bank u) (t.bank u) := by
  have tables (h : SameTables s t) : BankChange i u (s.bank u) (t.bank u) := .of_eq (h.bank_eq u)
  cases h with
  | read _ => exact .same
  | ctNew v => exact .setBank ⟨rfl, rfl⟩ (.emptied rfl) u
  | ctInsert hs hc hn => exact .setBank ⟨rfl, rfl⟩ (.inserted rfl hs hc hn) u
  | ctReserve hr => exact .setBank ⟨rfl, rfl⟩ (.reserved (.inl rfl) hr) u
  | ctTransp hr => exact .setBank ⟨rfl, rfl⟩ (.reserved (.inr rfl) hr) u
  | @ctSerialize v _ _ => exact .setBank (s' := s.emitBytes (s.bank v).serialBytes) ⟨rfl, rfl⟩ (.sealed rfl) u
  | lzwSym _ _ h => exact tables (takeIndex_sameTables h)
  | lzwPix _ _ _ h => exact tables (takeIndex_sameTables h)
  | lzwStart _ => exact tables (by simp [SameTables])
  | lzwEnd _ _ => exact tables (by simp [SameTables])
  | bpPush _ _ _ _ => exact tables (by simp [SameTables])
  | bpFlush _ => exact tables (by simp [SameTables])

theorem exec_bankChange {i : Instr} {s t : State} (h : exec i s = .next t) (hi : i ≠ .sysReset) (u : BankId) :
    BankChange i u (s.bank u) (t.bank u) := by
  rcases exec_next_block h hi with hb | ⟨s', he, hb⟩
  · exact .of_eq (hb.2.1.bank_eq u)
  · rw [hb.2.1.bank_eq u]
    exact he.bankChange u

theorem Bank.empty_inv : Bank.empty.Inv := ⟨List.nodup_nil, Nat.zero_le _⟩

/-- A new colour within capacity (41 R132). -/
theorem Bank.Inv.insert {b : Bank} (h : b.Inv) {c : Color} (hc : c ∉ b.colors) (hn : b.n < b.capacity) :
    (b.insert c).Inv := by
  refine ⟨?_, ?_⟩
  · rw [insert_colors, ← List.concat_eq_append]
    exact h.1.concat hc
  · rw [insert_n]
    exact hn

/-- CT_RESERVE and CT_TRANSP go on only where the flag is set already, or the bank is open and has a free slot
(41 R137). -/
theorem reserveFault_eq_none_iff (b : Bank) :
    b.reserveFault = none ↔ b.rsv = true ∨ (b.sealed = false ∧ b.n ≤ 255) := by
  unfold Bank.reserveFault
  cases b.rsv <;> cases b.sealed <;> simp

/-- Reserving where the checks pass leaves room for the reserved slot (41 R134). -/
theorem Bank.Inv.reserve {b : Bank} (h : b.Inv) (hr : b.reserveFault = none) : b.reserve.Inv := by
  refine ⟨h.1, ?_⟩
  have hn : b.n ≤ 255 := by
    rcases (reserveFault_eq_none_iff b).mp hr with hrsv | ⟨_, hn⟩
    · have := h.n_add_rsv_le
      rw [hrsv, Bool.toNat_true] at this
      omega
    · exact hn
  rw [capacity_eq]
  exact hn

theorem BankChange.inv {i : Instr} {u : BankId} {b b' : Bank} (h : BankChange i u b b') (hb : b.Inv) : b'.Inv := by
  cases h with
  | same => exact hb
  | emptied _ => exact Bank.empty_inv
  | inserted _ _ hc hn => exact hb.insert hc hn
  | reserved _ hr => exact hb.reserve hr
  | sealed _ => exact hb

/-- 10_state R25(c): a bank only grows, except by CT_NEW. -/
theorem BankChange.grows {i : Instr} {u : BankId} {b b' : Bank} (h : BankChange i u b b') (hi : i ≠ .ctNew u) :
    b.colors <+: b'.colors ∧ (b.rsv = true → b'.rsv = true) := by
  cases h with
  | same => exact ⟨List.prefix_rfl, id⟩
  | emptied h' => exact absurd h' hi
  | inserted _ _ _ _ => exact ⟨List.prefix_append _ _, id⟩
  | reserved _ _ => exact ⟨List.prefix_rfl, fun _ => rfl⟩
  | sealed _ => exact ⟨List.prefix_rfl, id⟩

/-- 10_state R25(d): a sealed bank does not change, except by CT_NEW. -/
theorem BankChange.eq_of_sealed {i : Instr} {u : BankId} {b b' : Bank} (h : BankChange i u b b')
    (hi : i ≠ .ctNew u) (hs : b.sealed = true) : b' = b := by
  cases h with
  | same => rfl
  | emptied h' => exact absurd h' hi
  | inserted _ hs' _ _ => simp [hs] at hs'
  | reserved _ hr =>
    have hrsv : b.rsv = true := by simpa [hs] using (reserveFault_eq_none_iff b).mp hr
    simp [Bank.reserve, ← hrsv]
  | sealed _ => simp [Bank.seal, ← hs]

theorem BankChange.eq_of_not_writesBank {i : Instr} {u : BankId} {b b' : Bank} (h : BankChange i u b b')
    (hi : ¬ writesBank i u) : b' = b := by
  cases h with
  | same => rfl
  | emptied h' => exact absurd (.inl h') hi
  | inserted h' _ _ _ => exact absurd (.inr (.inl ⟨_, h'⟩)) hi
  | reserved h' _ => exact absurd (.inr (.inr (h'.imp_right .inl))) hi
  | sealed h' => exact absurd (.inr (.inr (.inr (.inr h')))) hi

/-- Settles O12, from `BankChange`: every write of a bank is one of five. -/
theorem bankInvariantsAreKept : Obligations.BankInvariantsAreKept := by
  unfold Obligations.BankInvariantsAreKept
  refine ⟨fun u => by cases u <;> exact Bank.empty_inv, fun i s t u h => ?_⟩
  by_cases hi : i = .sysReset
  · subst hi
    refine ⟨fun _ => ?_, fun _ hne => absurd rfl hne⟩
    rw [(sysReset_next_block h).2.1.bank_eq u]
    cases u <;> exact Bank.empty_inv
  · have hc := exec_bankChange h hi u
    exact ⟨hc.inv, fun hnew _ => ⟨(hc.grows hnew).1, (hc.grows hnew).2, hc.eq_of_sealed hnew⟩⟩

/-- Settles O51: of the five things a bank can become, four are the bank's own commands. -/
theorem onlyBankCommandsWriteBank : Obligations.OnlyBankCommandsWriteBank := by
  unfold Obligations.OnlyBankCommandsWriteBank
  intro i s t u h hw hi
  exact (exec_bankChange h hi u).eq_of_not_writesBank hw

/-! ### The derived sizes of a bank (10_state R26 to R29) -/

theorem ceilLog2_max_one (n : Nat) : ceilLog2 (max n 1) = ceilLog2 n := by
  cases n with
  | zero => rfl
  | succ n => rw [Nat.max_eq_left (by omega)]

/-- The exponent whose power is the least one above `n`: one more on a power of two, the same elsewhere. -/
theorem ceilLog2_succ (n : Nat) : ceilLog2 (n + 1) = ceilLog2 n + (isPow2 n).toNat := by
  by_cases h : isPow2 n = true
  · obtain ⟨e, rfl⟩ := (isPow2_iff n).mp h
    rw [h, ceilLog2_two_pow, Bool.toNat_true]
    have hle : ceilLog2 (2 ^ e + 1) ≤ e + 1 := by
      rw [ceilLog2_le_iff, Nat.pow_succ]
      have := Nat.one_le_two_pow (n := e)
      omega
    have hgt : ¬ ceilLog2 (2 ^ e + 1) ≤ e := by
      rw [ceilLog2_le_iff]
      omega
    omega
  · have hne : ∀ e, n ≠ 2 ^ e := fun e he => h ((isPow2_iff n).mpr ⟨e, he⟩)
    have hiff : ∀ e, ceilLog2 (n + 1) ≤ e ↔ ceilLog2 n ≤ e := by
      intro e
      rw [ceilLog2_le_iff, ceilLog2_le_iff]
      have := hne e
      omega
    rw [Bool.eq_false_iff.mpr h, Bool.toNat_false]
    exact Nat.le_antisymm ((hiff _).mpr (Nat.le_refl _)) ((hiff _).mp (Nat.le_refl _))

/-- The declared length is the least power of two, from 2 on, that holds the explicit colours and the reserved slot. -/
theorem declaredLength_eq (n : Nat) (rsv : Bool) :
    declaredLength n rsv = 2 ^ max 1 (ceilLog2 (n + rsv.toNat)) := by
  have hmax (e : Nat) : max Config.minDeclared (2 ^ e) = 2 ^ max 1 e :=
    ((pow_right_mono₀ (one_le_two (α := Nat))).map_max (a := 1) (b := e)).symm
  unfold declaredLength
  rw [← hmax, clp2, ceilLog2_max_one]
  cases rsv with
  | false => rfl
  | true =>
    rw [Bool.toNat_true, ceilLog2_succ]
    cases isPow2 n with
    | false => rfl
    | true => simp [Nat.pow_succ, Nat.mul_comm]

theorem sizeField_eq (n : Nat) (rsv : Bool) : sizeField n rsv = max 1 (ceilLog2 (n + rsv.toNat)) - 1 := by
  rw [sizeField, declaredLength_eq, log2_two_pow]

/-- 10_state R27 read backwards: the declared length is `2^(sf + 1)`. -/
theorem Bank.declaredLength_eq_two_pow (b : Bank) : b.declaredLength = 2 ^ (b.sizeField + 1) := by
  rw [Bank.declaredLength, Bank.sizeField, declaredLength_eq, sizeField_eq, Nat.sub_add_cancel (Nat.le_max_left ..)]

/-- The explicit colours and the reserved slot fit the declared length. -/
theorem Bank.n_add_rsv_le_declaredLength (b : Bank) : b.n + b.rsv.toNat ≤ b.declaredLength := by
  rw [Bank.declaredLength, declaredLength_eq, ← ceilLog2_le_iff]
  exact Nat.le_max_right ..

theorem Bank.Inv.sizeField_le {b : Bank} (h : b.Inv) : b.sizeField ≤ 7 := by
  have he : ceilLog2 (b.n + b.rsv.toNat) ≤ 8 := (ceilLog2_le_iff _ _).mpr h.n_add_rsv_le
  rw [Bank.sizeField, sizeField_eq]
  omega

/-- Settles O27, from `declaredLength_eq`: the declared length is the least power of two with room for `n + rsv`. -/
theorem derivedSizesAreInRange : Obligations.DerivedSizesAreInRange := by
  unfold Obligations.DerivedSizesAreInRange
  intro b hb
  have hsf := hb.sizeField_le
  have hdl := b.declaredLength_eq_two_pow
  have hfit := b.n_add_rsv_le_declaredLength
  have hlo : 2 ^ 1 ≤ b.declaredLength := hdl ▸ Nat.pow_le_pow_right (by omega) (by omega)
  have hhi : b.declaredLength ≤ 2 ^ 8 := hdl ▸ Nat.pow_le_pow_right (by omega) (by omega)
  have hbytes : b.byteLength = 3 * b.declaredLength := rfl
  refine ⟨hsf, hdl, by omega, hbytes, by omega, by omega, rfl, fun hrsv => ?_⟩
  rw [hrsv, Bool.toNat_true] at hfit
  rw [Bank.transparentIndex]
  omega

/-! ### The code table and the working buffer (10_state R33 to R38) -/

/-- The part of the LZW invariant that speaks of the size field, the code width and the dictionary (10_state R33 to R36,
R38). -/
structure Lzw.TableInv (l : Lzw) : Prop where
  sf_le : l.sf ≤ 7
  m_eq : l.m = minCodeSize l.sf
  lt_w : l.m + 1 ≤ l.w
  w_le : l.w ≤ Config.maxCodeWidth
  lt_next : 2 ^ (l.w - 1) < l.next
  next_le : l.next ≤ 2 ^ l.w
  dict_wf : Dict.wf l.m l.next l.dict
  entries : ∀ e ∈ l.dict, l.entryInv e

/-- The part of the LZW invariant that speaks of the working buffer (10_state R37). -/
structure Lzw.BufferInv (l : Lzw) : Prop where
  legal : ∀ k ∈ l.buf, k < l.indexBound
  known_of_run : l.phase = .run → l.known l.buf = true
  empty_of_not_run : l.phase ≠ .run → l.buf = []

theorem Lzw.inv_iff (l : Lzw) : l.Inv ↔ l.TableInv ∧ l.BufferInv := by
  constructor
  · rintro ⟨hsf, hm, ⟨hlw, hw⟩, ⟨hln, hn⟩, hd, he, hleg, hrun, hnot⟩
    exact ⟨⟨hsf, hm, hlw, hw, hln, hn, hd, he⟩, ⟨hleg, hrun, hnot⟩⟩
  · rintro ⟨ht, hb⟩
    exact ⟨ht.sf_le, ht.m_eq, ⟨ht.lt_w, ht.w_le⟩, ⟨ht.lt_next, ht.next_le⟩, ht.dict_wf, ht.entries, hb.legal,
      hb.known_of_run, hb.empty_of_not_run⟩

theorem le_minCodeSize (sf : Nat) : 2 ≤ minCodeSize sf ∧ sf + 1 ≤ minCodeSize sf := by
  unfold minCodeSize Config.minCodeSizeFloor
  omega

theorem minCodeSize_le {sf : Nat} (h : sf ≤ 7) : minCodeSize sf ≤ 8 := by
  unfold minCodeSize Config.minCodeSizeFloor
  omega

/-- The end code and one more fit one bit more than the code size. -/
theorem two_pow_add_two_le {m : Nat} (h : 1 ≤ m) : 2 ^ m + 2 ≤ 2 ^ (m + 1) := by
  have : 2 ^ 1 ≤ 2 ^ m := Nat.pow_le_pow_right (by omega) h
  rw [Nat.pow_succ]
  omega

/-- `code_of` of one index (42_lzw R172). -/
theorem Lzw.codeOf_singleton (l : Lzw) (k : Nat) : l.codeOf [k] = if k < 2 ^ l.m then some k else none := rfl

theorem Lzw.known_iff (l : Lzw) (q : List Nat) : l.known q = true ↔ ∃ c, l.codeOf q = some c :=
  Option.isSome_iff_exists

theorem Lzw.known_eq_false_iff (l : Lzw) (q : List Nat) : l.known q = false ↔ l.codeOf q = none := by
  rw [Lzw.known, Option.isSome_eq_false_iff, Option.isNone_iff_eq_none]

namespace Lzw.TableInv

/-- The table reads neither the buffer nor the phase. -/
theorem withBuffer {l : Lzw} (h : l.TableInv) (q : List Nat) (p : Phase) :
    { l with buf := q, phase := p : Lzw }.TableInv :=
  ⟨h.sf_le, h.m_eq, h.lt_w, h.w_le, h.lt_next, h.next_le, h.dict_wf, h.entries⟩

/-- A table as reset, LZW_START and a clear leave it (42_lzw R175). -/
theorem of_cleared {l : Lzw} (hsf : l.sf ≤ 7) (hm : l.m = minCodeSize l.sf) (hw : l.w = l.m + 1)
    (hn : l.next = 2 ^ l.m + 2) (hd : l.dict = []) : l.TableInv where
  sf_le := hsf
  m_eq := hm
  lt_w := hw.ge
  w_le := by
    have := minCodeSize_le hsf
    simp only [Config.maxCodeWidth]
    omega
  lt_next := by
    rw [hw, hn, Nat.add_sub_cancel]
    omega
  next_le := by
    rw [hw, hn]
    apply two_pow_add_two_le
    have := (le_minCodeSize l.sf).1
    omega
  dict_wf := by
    rw [hd, hn]
    exact Dict.wf_empty _
  entries := by simp [hd]

theorem clearTable {l : Lzw} (h : l.TableInv) : l.clearTable.TableInv := of_cleared h.sf_le h.m_eq rfl rfl rfl

variable {l : Lzw} (h : l.TableInv)
include h

theorem endCode_lt : l.endCode < 2 ^ l.w := by
  have hm := (le_minCodeSize l.sf).1
  rw [← h.m_eq] at hm
  have := two_pow_add_two_le (m := l.m) (by omega)
  have := Nat.pow_le_pow_right (n := 2) (by omega) h.lt_w
  rw [Lzw.endCode]
  omega

theorem clearCode_lt : l.clearCode < 2 ^ l.w := Nat.lt_of_succ_lt h.endCode_lt

/-- Every index the stream accepts has a code (42_lzw R172, R174). -/
theorem known_singleton {k : Nat} (hk : k < l.indexBound) : l.known [k] = true := by
  have hle : l.sf + 1 ≤ l.m := h.m_eq ▸ (le_minCodeSize l.sf).2
  have hk' : k < 2 ^ l.m := Nat.lt_of_lt_of_le hk (Nat.pow_le_pow_right (by omega) hle)
  rw [Lzw.known, Lzw.codeOf_singleton, if_pos hk']
  rfl

/-- A known sequence is one index, or the key of an entry. -/
theorem codeOf_cases {q : List Nat} {c : Nat} (hq : l.codeOf q = some c) :
    (q = [c] ∧ c < 2 ^ l.m) ∨ (c < l.next ∧ q.length + l.firstCode ≤ c + 2) := by
  match q with
  | [] => simp [Lzw.codeOf, codeIn] at hq
  | [k] =>
    left
    rw [Lzw.codeOf_singleton] at hq
    split at hq
    · next hk =>
      cases hq
      exact ⟨rfl, hk⟩
    · cases hq
  | a :: b :: r =>
    right
    have hd : l.dict.lookup (a :: b :: r) = some c := hq
    obtain ⟨_, hlen, _, _⟩ := h.entries _ (mem_of_lookup_eq_some hd)
    exact ⟨(Dict.wf_code h.dict_wf hd).2, hlen⟩

/-- 10_state R38(e). -/
theorem codeOf_lt {q : List Nat} {c : Nat} (hq : l.codeOf q = some c) : c < 2 ^ l.w := by
  rcases h.codeOf_cases hq with ⟨_, hc⟩ | ⟨hc, _⟩
  · exact Nat.lt_trans hc h.clearCode_lt
  · exact Nat.lt_of_lt_of_le hc h.next_le

/-- A known sequence is no longer than the number of entries plus one (10_state R37). -/
theorem length_le_of_codeOf {q : List Nat} {c : Nat} (hq : l.codeOf q = some c) :
    q.length + l.firstCode ≤ l.next + 1 := by
  have hfirst : l.firstCode ≤ l.next := h.dict_wf.1
  rcases h.codeOf_cases hq with ⟨rfl, _⟩ | ⟨hc, hlen⟩
  · rw [List.length_singleton]
    omega
  · omega

/-- The growth rule keeps the width and the next code in range while the table is not full (42_lzw R175). -/
theorem width_addEntry (q : List Nat) (hn : l.next ≠ Config.maxCodes) :
    l.m + 1 ≤ (l.addEntry q).w ∧ (l.addEntry q).w ≤ Config.maxCodeWidth ∧
      2 ^ ((l.addEntry q).w - 1) < (l.addEntry q).next ∧ (l.addEntry q).next ≤ 2 ^ (l.addEntry q).w := by
  have hlw := h.lt_w
  have hw := h.w_le
  have hlo := h.lt_next
  have hhi := h.next_le
  rw [addEntry_w, addEntry_next]
  split
  · next hfull =>
    have hne : l.w ≠ Config.maxCodeWidth := fun h12 => hn (by rw [hfull, h12]; rfl)
    refine ⟨by omega, by omega, ?_, ?_⟩
    · rw [Nat.add_sub_cancel]
      omega
    · rw [Nat.pow_succ]
      have := Nat.one_le_two_pow (n := l.w)
      omega
  · exact ⟨hlw, hw, by omega, by omega⟩

/-- The entry that is added meets what is claimed of an entry (10_state R36, R38(d)). -/
theorem entryInv_new {q : List Nat} {k c : Nat} (hq : l.codeOf q = some c) (hnew : l.codeOf (q ++ [k]) = none)
    (hlegal : ∀ j ∈ q ++ [k], j < l.indexBound) : (l.addEntry (q ++ [k])).entryInv (q ++ [k], l.next) := by
  have hlen : 2 ≤ (q ++ [k]).length := by
    cases q with
    | nil => simp [Lzw.codeOf, codeIn] at hq
    | cons => simp
  refine ⟨hlen, ?_, hlegal, ?_⟩
  · have := h.length_le_of_codeOf hq
    rw [List.length_append, List.length_singleton]
    change _ + l.firstCode ≤ _
    omega
  · rw [List.dropLast_concat]
    exact addEntry_known_of_known l _ q hlen hnew ((l.known_iff q).mpr ⟨c, hq⟩)

/-- `dict_insert` of an unknown one-index extension of a known sequence keeps the table's invariant. -/
theorem addEntry {q : List Nat} {k c : Nat} (hq : l.codeOf q = some c) (hnew : l.codeOf (q ++ [k]) = none)
    (hlegal : ∀ j ∈ q ++ [k], j < l.indexBound) (hn : l.next ≠ Config.maxCodes) :
    (l.addEntry (q ++ [k])).TableInv := by
  obtain ⟨hlw, hw, hlo, hhi⟩ := h.width_addEntry (q ++ [k]) hn
  have hent := h.entryInv_new hq hnew hlegal
  have hlen : 2 ≤ (q ++ [k]).length := hent.1
  have hd : l.dict.lookup (q ++ [k]) = none := by rwa [Lzw.codeOf, codeIn_of_two_le hlen] at hnew
  refine ⟨h.sf_le, h.m_eq, hlw, hw, hlo, hhi, Dict.wf_add h.dict_wf hd, fun e he => ?_⟩
  rw [addEntry_dict, List.mem_append, List.mem_singleton] at he
  rcases he with he | rfl
  · obtain ⟨h2, hle, hleg, hpre⟩ := h.entries e he
    exact ⟨h2, hle, hleg, addEntry_known_of_known l _ _ hlen hnew hpre⟩
  · exact hent

end Lzw.TableInv

/-- A buffer of one legal index, in phase RUN (42_lzw R174). -/
theorem Lzw.inv_of_singleton_buf {l : Lzw} (h : l.TableInv) {k : Nat} (hq : l.buf = [k]) (hk : k < l.indexBound)
    (hp : l.phase = .run) : l.Inv :=
  (Lzw.inv_iff _).mpr ⟨h, by simpa [hq] using hk, fun _ => hq ▸ h.known_singleton hk, fun hn => absurd hp hn⟩

/-- No stream is open, or nothing was taken from it yet: the buffer is empty. -/
theorem Lzw.inv_of_empty_buf {l : Lzw} (h : l.TableInv) (hq : l.buf = []) (hp : l.phase ≠ .run) : l.Inv :=
  (Lzw.inv_iff _).mpr ⟨h, by simp [hq], fun h => absurd h hp, fun _ => hq⟩

/-- Settles O13: a code names a single index or an entry, and entries' codes are below `next`. -/
theorem emittableCodesFitTheWidth : Obligations.EmittableCodesFitTheWidth := by
  unfold Obligations.EmittableCodesFitTheWidth
  intro l hl
  obtain ⟨ht, hb⟩ := (Lzw.inv_iff l).mp hl
  refine ⟨ht.clearCode_lt, ht.endCode_lt, fun q c hq => ht.codeOf_lt hq, fun hp => ?_⟩
  obtain ⟨c, hc⟩ := (l.known_iff l.buf).mp (hb.known_of_run hp)
  have := ht.length_le_of_codeOf hc
  exact ⟨⟨c, hc⟩, by omega⟩

/-! ### The bit packer (10_state R41, R42) -/

/-- A code of `w` bits above the `n` pending ones. -/
theorem add_mul_two_pow_lt {a v n w : Nat} (ha : a < 2 ^ n) (hv : v < 2 ^ w) : a + v * 2 ^ n < 2 ^ (n + w) := by
  calc a + v * 2 ^ n < 2 ^ n + v * 2 ^ n := by omega
    _ = (v + 1) * 2 ^ n := by rw [Nat.add_mul, Nat.one_mul, Nat.add_comm]
    _ ≤ 2 ^ w * 2 ^ n := Nat.mul_le_mul_right _ hv
    _ = 2 ^ (n + w) := by rw [← Nat.pow_add, Nat.add_comm]

/-- Pushing a code that fits its width keeps the packer's invariant. -/
theorem bpPush_inv {s : State} (h : s.bp.Inv) {v w : Nat} (hv : v < 2 ^ w) : (s.bpPush v w).bp.Inv := by
  refine ⟨?_, ?_⟩
  · rw [bpPush_nbits]
    omega
  · rw [bpPush_acc, bpPush_nbits, Nat.div_lt_iff_lt_mul (Nat.pow_pos (by omega)),
      show 256 = 2 ^ 8 from rfl, ← Nat.pow_mul, ← Nat.pow_add, Nat.mod_add_div]
    exact add_mul_two_pow_lt h.2 hv

theorem Packer.empty_inv : Packer.Inv { nbits := 0, acc := 0 } := ⟨Nat.zero_le _, Nat.one_pos⟩

/-! ### Taking one index keeps the invariant (42_lzw R174, R175) -/

/-- `dict_insert` writes the code table alone, and the packer where it clears it. -/
theorem dictInsert_lzw (s : State) (q : List Nat) :
    (s.dictInsert q).lzw = if s.lzw.next = Config.maxCodes then s.lzw.clearTable else s.lzw.addEntry q := by
  rcases dictInsert_cases s q with ⟨hn, h⟩ | ⟨hn, h⟩
  · rw [h, if_pos hn]
  · rw [h, if_neg hn]

/-- A clear code fits the 12 bits it leaves at (42_lzw R175). -/
theorem dictInsert_bp_inv {s : State} (ht : s.lzw.TableInv) (hb : s.bp.Inv) (q : List Nat) :
    (s.dictInsert q).bp.Inv := by
  rcases dictInsert_cases s q with ⟨_, h⟩ | ⟨_, h⟩
  · rw [h]
    exact bpPush_inv hb (Nat.lt_of_lt_of_le ht.clearCode_lt (Nat.pow_le_pow_right (by omega) ht.w_le))
  · rw [h]
    exact hb

theorem Phase.eq_run {p : Phase} (hi : p ≠ .idle) (hf : p ≠ .first) : p = .run := by
  cases p with
  | idle => exact absurd rfl hi
  | first => exact absurd rfl hf
  | run => rfl

theorem takeIndex_lzw_inv {s t : State} {k : Nat} (hl : s.lzw.Inv) (hp : s.lzw.phase ≠ .idle)
    (hk : k < s.lzw.indexBound) (h : s.takeIndex k = some t) : t.lzw.Inv := by
  obtain ⟨ht, hbuf⟩ := (Lzw.inv_iff _).mp hl
  have hlegal : ∀ j ∈ s.lzw.buf ++ [k], j < s.lzw.indexBound := by
    intro j hj
    rcases List.mem_append.mp hj with hj | hj
    · exact hbuf.legal j hj
    · exact List.mem_singleton.mp hj ▸ hk
  rcases takeIndex_cases h with ⟨_, rfl⟩ | ⟨hf, hknown, rfl⟩ | ⟨c, hf, hnew, hc, rfl⟩
  · exact Lzw.inv_of_singleton_buf (ht.withBuffer [k] .run) rfl hk rfl
  · exact (Lzw.inv_iff _).mpr
      ⟨ht.withBuffer (s.lzw.buf ++ [k]) s.lzw.phase, hlegal, fun _ => hknown, fun hn => absurd (Phase.eq_run hp hf) hn⟩
  · have htab : ((s.bpPush c s.lzw.w).dictInsert (s.lzw.buf ++ [k])).lzw.TableInv := by
      rw [dictInsert_lzw, bpPush_lzw]
      split
      · exact ht.clearTable
      · next hn => exact ht.addEntry hc ((Lzw.known_eq_false_iff _ _).mp hnew) hlegal hn
    refine Lzw.inv_of_singleton_buf (htab.withBuffer [k] _) rfl ?_ ?_
    · simpa [Lzw.indexBound] using hk
    · simpa using Phase.eq_run hp hf

theorem takeIndex_bp_inv {s t : State} {k : Nat} (ht : s.lzw.TableInv) (hb : s.bp.Inv)
    (h : s.takeIndex k = some t) : t.bp.Inv := by
  rcases takeIndex_cases h with ⟨_, rfl⟩ | ⟨_, _, rfl⟩ | ⟨c, _, _, hc, rfl⟩
  · exact hb
  · exact hb
  · refine dictInsert_bp_inv ?_ (bpPush_inv hb (ht.codeOf_lt hc)) _
    rwa [bpPush_lzw]

/-! ### Every effect keeps the invariant -/

/-- LZW_START opens an empty code table of the bank's size field (42_lzw R173). -/
theorem openStream_tableInv {s : State} {u : BankId} (h : (s.bank u).Inv) : (s.openStream u).lzw.TableInv :=
  .of_cleared h.sizeField_le rfl rfl rfl rfl

theorem Effect.lzw_inv {i : Instr} {s t : State} (h : Effect i s t) (hs : s.Inv) : t.lzw.Inv := by
  obtain ⟨hbanks, hl, _⟩ := s.inv_iff.mp hs
  cases h with
  | @lzwStart u _ _ =>
    rw [bpPush_lzw]
    exact Lzw.inv_of_empty_buf (openStream_tableInv (hbanks u)) rfl (by simp)
  | lzwSym hp hk h => exact takeIndex_lzw_inv hl hp hk h
  | lzwPix hp _ hk h => exact takeIndex_lzw_inv hl hp hk h
  | lzwEnd _ _ =>
    have ht := ((Lzw.inv_iff _).mp hl).1
    simp only [closeStream_lzw, bpFlush_lzw, bpPush_lzw]
    exact Lzw.inv_of_empty_buf (ht.withBuffer [] .idle) rfl (by simp)
  | _ => simpa using hl

theorem Effect.bp_inv {i : Instr} {s t : State} (h : Effect i s t) (hs : s.Inv) : t.bp.Inv := by
  obtain ⟨hbanks, hl, hb⟩ := s.inv_iff.mp hs
  have ht := ((Lzw.inv_iff _).mp hl).1
  cases h with
  | @lzwStart u _ _ => exact bpPush_inv Packer.empty_inv (openStream_tableInv (hbanks u)).clearCode_lt
  | lzwSym _ _ h => exact takeIndex_bp_inv ht hb h
  | lzwPix _ _ _ h => exact takeIndex_bp_inv ht hb h
  | lzwEnd _ _ =>
    rw [closeStream_bp, bpFlush_bp]
    exact Packer.empty_inv
  | bpPush _ _ _ hv => exact bpPush_inv hb hv
  | bpFlush _ =>
    rw [bpFlush_bp]
    exact Packer.empty_inv
  | _ => simpa using hb

theorem Effect.inv {i : Instr} {s t : State} (h : Effect i s t) (hs : s.Inv) : t.Inv :=
  t.inv_iff.mpr ⟨fun u => (h.bankChange u).inv ((s.inv_iff.mp hs).1 u), h.lzw_inv hs, h.bp_inv hs⟩

/-- Settles O9: the reset table is an emptied one at size field 0. -/
theorem resetMeetsInvariants : Obligations.ResetMeetsInvariants := by
  unfold Obligations.ResetMeetsInvariants
  refine ⟨Bank.empty_inv, Bank.empty_inv, ?_, Packer.empty_inv⟩
  exact Lzw.inv_of_empty_buf (.of_cleared (Nat.zero_le _) rfl rfl rfl rfl) rfl (by decide)

theorem exec_inv {i : Instr} {s t : State} (hs : s.Inv) (h : exec i s = .next t) : t.Inv := by
  by_cases hi : i = .sysReset
  · subst hi
    exact State.Inv.of_sameBlock resetMeetsInvariants (sysReset_next_block h)
  · rcases exec_next_block h hi with hb | ⟨s', he, hb⟩
    · exact hs.of_sameBlock hb
    · exact (he.inv hs).of_sameBlock hb

/-- An illegal word is answered, and the block is left apart from its fault register (30_encoding R86). -/
theorem execIllegal_block (s : State) : ∃ t, execIllegal s = .next t ∧ SameBlock s t := by
  rcases unlessFaulted_cases s (raiseFault .illegalCommand s) with ⟨_, _, h⟩ | ⟨_, h⟩
  · exact ⟨_, h, rfl, ⟨rfl, rfl⟩, rfl, rfl⟩
  · exact ⟨_, h, rfl, ⟨rfl, rfl⟩, rfl, rfl⟩

/-! ### The step (10_state R21) -/

theorem step_of_nil {s : State} (h : s.port.commands = []) : step s = .next s := by
  simp [step, State.pendingCommand, h]

theorem step_of_decode_ok {s : State} {cmd : Word} {rest : List Word} {i : Instr}
    (h : s.port.commands = cmd :: rest) (hd : decode cmd = .ok i) : step s = exec i s := by
  simp [step, State.pendingCommand, h, hd]

theorem step_of_decode_error {s : State} {cmd : Word} {rest : List Word} {e : IllegalWord}
    (h : s.port.commands = cmd :: rest) (hd : decode cmd = .error e) : step s = execIllegal s := by
  simp [step, State.pendingCommand, h, hd]

/-- The three things a step can be. -/
theorem step_cases (s : State) : step s = .next s ∨ (∃ i, step s = exec i s) ∨ step s = execIllegal s := by
  cases hc : s.port.commands with
  | nil => exact .inl (step_of_nil hc)
  | cons cmd rest =>
    cases hd : decode cmd with
    | ok i => exact .inr (.inl ⟨i, step_of_decode_ok hc hd⟩)
    | error e => exact .inr (.inr (step_of_decode_error hc hd))

/-- Settles O5, by the three equations of the step. -/
theorem stepRunsDecodedCommand : Obligations.StepRunsDecodedCommand := by
  unfold Obligations.StepRunsDecodedCommand
  exact ⟨fun _ _ _ _ => step_of_decode_ok, fun _ _ _ _ => step_of_decode_error, fun _ => step_of_nil⟩

/-- Settles O10, by `Effect.inv`: every effect of a command keeps the invariant of each unit. -/
theorem stepKeepsInvariants : Obligations.StepKeepsInvariants := by
  unfold Obligations.StepKeepsInvariants
  intro s t hs h
  rcases step_cases s with hstep | ⟨i, hstep⟩ | hstep
  · rw [hstep] at h
    cases h
    exact hs
  · exact exec_inv hs (hstep ▸ h)
  · obtain ⟨t', ht', hb⟩ := execIllegal_block s
    rw [hstep, ht'] at h
    cases h
    exact hs.of_sameBlock hb

/-! ### No command stops in a good state (42_lzw R172) -/

theorem respond_next (v : Nat) (s : State) : ∃ t, respond v s = .next t := ⟨_, rfl⟩

theorem raiseFault_next (c : FaultCode) (s : State) : ∃ t, raiseFault c s = .next t := ⟨_, rfl⟩

/-- A guarded command answers where its meaning answers: a standing fault is answered always. -/
theorem unlessFaulted_next {s : State} {r : Result} (h : ∃ t, r = .next t) : ∃ t, unlessFaulted s r = .next t := by
  rcases unlessFaulted_cases s r with ⟨_, _, hr⟩ | ⟨_, hr⟩
  · exact ⟨_, hr⟩
  · rwa [hr]

theorem packAndRespond_next (fields : List (Nat × Nat)) (s : State) : ∃ t, packAndRespond fields s = .next t := by
  unfold packAndRespond
  split
  · exact respond_next _ _
  · exact raiseFault_next _ _

/-- In an open stream of a good state the buffer is empty and nothing was taken, or it has a code (10_state R37). -/
theorem takeIndexAndRespond_next {s : State} (hl : s.lzw.Inv) (hp : s.lzw.phase ≠ .idle) (k v : Nat) :
    ∃ t, takeIndexAndRespond k v s = .next t := by
  have hbuf := ((Lzw.inv_iff _).mp hl).2
  have hknown : s.lzw.phase = .first ∨ s.lzw.known s.lzw.buf = true := by
    by_cases hf : s.lzw.phase = .first
    · exact .inl hf
    · exact .inr (hbuf.known_of_run (Phase.eq_run hp hf))
  obtain ⟨t, ht⟩ := takeIndex_isSome k hknown
  exact ⟨_, by rw [takeIndexAndRespond, ht]; rfl⟩

/-- With a good LZW unit every command answers. Only LZW_SYM, LZW_PIX and LZW_END need it. -/
theorem exec_next {s : State} (hl : s.lzw.Inv) (i : Instr) : ∃ t, exec i s = .next t := by
  cases i with
  | sysReset => exact ⟨_, rfl⟩
  | packTcf _ _ _ _ | packIcf _ _ _ _ => exact unlessFaulted_next (packAndRespond_next _ _)
  | sysNop | sysStatus | ctNew _ | ctSize _ | ctDeclen _ | ctBytelen _ | ctUlen _ | lzwNext =>
    exact unlessFaulted_next (respond_next _ _)
  | ctColorAt _ _ | ctSerialize _ | lzwStart _ =>
    refine unlessFaulted_next ?_
    split
    · exact respond_next _ _
    · exact raiseFault_next _ _
  | ctReserve _ | ctTransp _ | ctLookup _ _ | bpFlush =>
    refine unlessFaulted_next ?_
    split
    · exact raiseFault_next _ _
    · exact respond_next _ _
  | packGcf _ _ _ =>
    refine unlessFaulted_next ?_
    split
    · exact raiseFault_next _ _
    · split
      · exact raiseFault_next _ _
      · exact respond_next _ _
  | ctInsert _ _ | bpPush _ _ =>
    refine unlessFaulted_next ?_
    split
    · exact raiseFault_next _ _
    · split
      · exact raiseFault_next _ _
      · split
        · exact respond_next _ _
        · exact raiseFault_next _ _
  | lzwSym k =>
    refine unlessFaulted_next ?_
    split
    · exact raiseFault_next _ _
    · next hp =>
      split
      · exact takeIndexAndRespond_next hl hp _ _
      · exact raiseFault_next _ _
  | lzwPix c =>
    refine unlessFaulted_next ?_
    split
    · exact raiseFault_next _ _
    · next hp =>
      split
      · exact raiseFault_next _ _
      · split
        · exact takeIndexAndRespond_next hl hp _ _
        · exact raiseFault_next _ _
  | lzwEnd =>
    refine unlessFaulted_next ?_
    split
    · exact raiseFault_next _ _
    · exact raiseFault_next _ _
    · next hp =>
      obtain ⟨c, hc⟩ := (Lzw.known_iff _ _).mp (((Lzw.inv_iff _).mp hl).2.known_of_run hp)
      rw [hc]
      exact respond_next _ _

/-- Settles O11: the buffer of an open stream has a code, so the model's one stop is never met. -/
theorem everyCommandCompletesInGoodStates : Obligations.EveryCommandCompletesInGoodStates := by
  unfold Obligations.EveryCommandCompletesInGoodStates
  intro s hs
  have hexec := exec_next (s.inv_iff.mp hs).2.1
  refine ⟨hexec, ?_⟩
  rcases step_cases s with hstep | ⟨i, hstep⟩ | hstep
  · exact ⟨s, hstep⟩
  · exact hstep ▸ hexec i
  · obtain ⟨t, ht, _⟩ := execIllegal_block s
    exact ⟨t, hstep.trans ht⟩

/-! ### What commands leave unchanged (10_state R21 to R24, R30 to R32, R41) -/

/-- Settles O7: an effect leaves the ports, and the response takes the word at the head. -/
theorem everyCommandTakesOneWord : Obligations.EveryCommandTakesOneWord := by
  unfold Obligations.EveryCommandTakesOneWord
  intro i s t h
  rcases exec_next_cases h with ⟨_, rfl⟩ | ⟨_, _, rfl⟩ | ⟨_, _, _, rfl⟩ | ⟨_, _, v, s', he, rfl⟩
  · rfl
  · rfl
  · rfl
  · rw [answer_commands, he.fault_port.2]

/-- Settles O8: the fields of the reset state are literals. -/
theorem resetStateIsAsTabled : Obligations.ResetStateIsAsTabled := by
  unfold Obligations.ResetStateIsAsTabled
  refine ⟨rfl, rfl, fun t => ?_, by decide⟩
  cases t <;> exact ⟨rfl, rfl, rfl, rfl⟩

/-- The table of 42_lzw R173 without the packer: the named bank alone decides the LZW unit. -/
theorem openStream_congr {s s' : State} {u : BankId} (h : s.bank u = s'.bank u) :
    (s'.openStream u).lzw = (s.openStream u).lzw ∧ (s'.openStream u).bp = (s.openStream u).bp := by
  unfold State.openStream
  rw [h]
  exact ⟨rfl, rfl⟩

/-- The stream opened and its clear code pushed (42_lzw R173). -/
def startStream (u : BankId) (s : State) : State :=
  (s.openStream u).bpPush (s.openStream u).lzw.clearCode (s.openStream u).lzw.w

theorem exec_lzwStart_of_idle {s : State} (hs : s.fault = none) (hp : s.lzw.phase = .idle) (u : BankId) :
    exec (.lzwStart u) s = .next ((startStream u s).answer (s.openStream u).lzw.m) := by
  rw [exec, execLzwStart, unlessFaulted_none hs, if_pos hp]
  rfl

/-- Settles O42: the opened LZW unit and the empty packer decide what the push of the clear code does. -/
theorem lzwStartForgetsEarlierStream : Obligations.LzwStartForgetsEarlierStream := by
  unfold Obligations.LzwStartForgetsEarlierStream
  intro s s' u hs hs' hp hp' hbank
  obtain ⟨hl, hb⟩ := openStream_congr hbank
  have hlzw : SameStream (startStream u s) (startStream u s') := by
    simp only [startStream, SameStream, bpPush_lzw, hl, bpPush_congr hb, and_self]
  refine ⟨_, _, _, exec_lzwStart_of_idle hs hp u, exec_lzwStart_of_idle hs' hp' u, hlzw, bpPush_out .., ?_⟩
  rw [← hb, ← hl]
  exact bpPush_out ..

theorem bpPush_out_prefix (s : State) (v w : Nat) : s.out <+: (s.bpPush v w).out :=
  bpPush_out s v w ▸ List.prefix_append _ _

theorem bpFlush_out_prefix (s : State) : s.out <+: s.bpFlush.out := bpFlush_out s ▸ List.prefix_append _ _

/-- `dict_insert` emits a clear code where the table is full, and nothing elsewhere. -/
theorem dictInsert_out_prefix (s : State) (q : List Nat) : s.out <+: (s.dictInsert q).out := by
  rcases dictInsert_cases s q with ⟨_, h⟩ | ⟨_, h⟩
  · rw [h]
    exact bpPush_out_prefix _ _ _
  · rw [h]

theorem takeIndex_out_prefix {s t : State} {k : Nat} (h : s.takeIndex k = some t) : s.out <+: t.out := by
  rcases takeIndex_cases h with ⟨_, rfl⟩ | ⟨_, _, rfl⟩ | ⟨c, _, _, _, rfl⟩
  · exact List.prefix_rfl
  · exact List.prefix_rfl
  · exact (bpPush_out_prefix s c s.lzw.w).trans (dictInsert_out_prefix _ _)

theorem Effect.out_prefix {i : Instr} {s t : State} (h : Effect i s t) : s.out <+: t.out := by
  cases h with
  | ctSerialize _ => simp
  | @lzwStart u _ _ => exact bpPush_out_prefix (s.openStream u) _ _
  | lzwSym _ _ h => exact takeIndex_out_prefix h
  | lzwPix _ _ _ h => exact takeIndex_out_prefix h
  | lzwEnd _ _ =>
    exact ((bpPush_out_prefix _ _ _).trans (bpPush_out_prefix _ _ _)).trans (bpFlush_out_prefix _)
  | bpPush _ _ _ _ => exact bpPush_out_prefix _ _ _
  | bpFlush _ => exact bpFlush_out_prefix _
  | _ => simp

/-- A command outside the stream commands leaves the LZW unit and the packer, and, CT_SERIALIZE apart, the output. -/
theorem Effect.frame_of_not_writesStream {i : Instr} {s t : State} (h : Effect i s t) (hi : ¬ writesStream i) :
    SameStream s t ∧ ((∀ u, i ≠ .ctSerialize u) → t.out = s.out) := by
  cases h with
  | ctSerialize _ => exact ⟨by simp [SameStream], fun h => absurd rfl (h _)⟩
  | lzwStart _ | lzwSym _ _ _ | lzwPix _ _ _ _ | lzwEnd _ _ | bpPush _ _ _ _ | bpFlush _ =>
    simp [writesStream] at hi
  | _ => simp [SameStream]

/-- Settles O49, from `Effect.out_prefix` and `Effect.frame_of_not_writesStream`. -/
theorem outputOnlyGrows : Obligations.OutputOnlyGrows := by
  unfold Obligations.OutputOnlyGrows
  intro i s t h
  refine ⟨fun hi => (sysReset_next_block (hi ▸ h)).1, fun hi => ?_, fun hi hser hw => ?_⟩
  · rcases exec_next_block h hi with hb | ⟨s', he, hb⟩
    · exact hb.1 ▸ List.prefix_rfl
    · exact hb.1 ▸ he.out_prefix
  · rcases exec_next_block h hi with hb | ⟨s', he, hb⟩
    · exact hb.1
    · exact hb.1.trans ((he.frame_of_not_writesStream hw).2 hser)

/-- The packer commands leave the LZW unit (43 R213, R214). -/
theorem Effect.lzw_of_packer {i : Instr} {s t : State} (h : Effect i s t)
    (hi : (∃ v w, i = .bpPush v w) ∨ i = .bpFlush) : t.lzw = s.lzw := by
  cases h with
  | bpPush _ _ _ _ => exact bpPush_lzw _ _ _
  | bpFlush _ => exact bpFlush_lzw _
  | read _ => rfl
  | _ => simp at hi

theorem SameStream.trans {s t r : State} (h : SameStream s t) (h' : SameStream t r) : SameStream s r :=
  ⟨h'.1.trans h.1, h'.2.trans h.2⟩

/-- Settles O52: neither a fault nor an effect outside the stream commands touches the stream. -/
theorem onlyStreamCommandsWriteStream : Obligations.OnlyStreamCommandsWriteStream := by
  unfold Obligations.OnlyStreamCommandsWriteStream
  intro i s t h hi
  rcases exec_next_block h hi with ⟨_, _, hstream⟩ | ⟨s', he, _, _, hstream⟩
  · exact ⟨fun _ => hstream, fun _ => hstream.1⟩
  · exact ⟨fun hw => (he.frame_of_not_writesStream hw).1.trans hstream,
      fun hp => hstream.1.trans (he.lzw_of_packer hp)⟩

/-- Only LZW_START latches a stream's parameters (10_state R31, R32). -/
theorem Effect.latched {i : Instr} {s t : State} (h : Effect i s t) (hi : ∀ u, i ≠ .lzwStart u) :
    t.lzw.sf = s.lzw.sf ∧ t.lzw.m = s.lzw.m ∧ t.lzw.bank = s.lzw.bank := by
  cases h with
  | lzwStart _ => exact absurd rfl (hi _)
  | lzwSym _ _ h | lzwPix _ _ _ h =>
    obtain ⟨_, _, _, _, hlatched⟩ := takeIndex_frame h
    exact hlatched
  | _ => simp

/-- Settles O53: taking an index and closing a stream leave what LZW_START latched. -/
theorem streamParametersAreLatched : Obligations.StreamParametersAreLatched := by
  unfold Obligations.StreamParametersAreLatched
  intro i s t h hi hstart
  rcases exec_next_block h hi with ⟨_, _, hl, _⟩ | ⟨s', he, _, _, hl, _⟩
  · rw [hl]
    exact ⟨rfl, rfl, rfl⟩
  · rw [hl]
    exact he.latched hstart

/-! ### The register form of the code table (10_state R39)

The buffer is held as its code, and an entry is keyed by the code of all but its last index and that index. The two
forms agree while codes name sequences uniquely and every known sequence is known without its last index. -/

/-- A dictionary of sequences and one of pairs that hold the same entries, every code below `next`. -/
structure PairForm (m next : Nat) (d : Dict) (pd : PairDict) : Prop where
  code_lt : ∀ q c, codeIn m d q = some c → c < next
  code_inj : ∀ q r c, codeIn m d q = some c → codeIn m d r = some c → q = r
  prefix_known : ∀ q k, q ≠ [] → codeIn m d q = none → codeIn m d (q ++ [k]) = none
  lookup_eq : ∀ q c k, codeIn m d q = some c → codeIn m d (q ++ [k]) = pd.lookup (c, k)
  fresh : ∀ c k, next ≤ c → pd.lookup (c, k) = none

theorem codeIn_ne_nil {m c : Nat} {d : Dict} {q : List Nat} (h : codeIn m d q = some c) : q ≠ [] := by
  rintro rfl
  simp [codeIn] at h

theorem two_le_length_append_singleton {q : List Nat} (h : q ≠ []) (k : Nat) : 2 ≤ (q ++ [k]).length := by
  have := List.length_pos_iff.mpr h
  rw [List.length_append, List.length_singleton]
  omega

theorem codeIn_singleton {m k : Nat} (d : Dict) (hk : k < 2 ^ m) : codeIn m d [k] = some k := if_pos hk

/-- `code_of` with no extension entry: the single indices (42_lzw R172). -/
theorem codeIn_empty_eq_some_iff {m : Nat} {q : List Nat} {c : Nat} :
    codeIn m [] q = some c ↔ q = [c] ∧ c < 2 ^ m := by
  match q with
  | [] => simp [codeIn]
  | [k] =>
    simp only [codeIn, Option.ite_none_right_eq_some, Option.some.injEq, List.cons.injEq, and_true]
    constructor
    · rintro ⟨hk, rfl⟩
      exact ⟨rfl, hk⟩
    · rintro ⟨rfl, hk⟩
      exact ⟨hk, rfl⟩
  | _ :: _ :: _ => simp [codeIn]

theorem codeIn_empty_append {m : Nat} {q : List Nat} (h : q ≠ []) (k : Nat) : codeIn m [] (q ++ [k]) = none := by
  rw [codeIn_of_two_le (two_le_length_append_singleton h k)]
  rfl

theorem PairForm.empty (m : Nat) : PairForm m (2 ^ m + 2) [] [] where
  code_lt q c h := by
    have := (codeIn_empty_eq_some_iff.mp h).2
    omega
  code_inj q r c hq hr := (codeIn_empty_eq_some_iff.mp hq).1.trans (codeIn_empty_eq_some_iff.mp hr).1.symm
  prefix_known q k hq _ := codeIn_empty_append hq k
  lookup_eq q c k hq := codeIn_empty_append (codeIn_ne_nil hq) k
  fresh _ _ _ := rfl

/-- `code_of` after an entry is added (`addEntry_codeOf` on the dictionary alone). -/
theorem codeIn_append_new {m next : Nat} {d : Dict} {q : List Nat} (hq : 2 ≤ q.length) (hnew : codeIn m d q = none)
    (r : List Nat) : codeIn m (d ++ [(q, next)]) r = if r = q then some next else codeIn m d r :=
  addEntry_codeOf { Lzw.reset with m := m, next := next, dict := d } q r hq hnew

theorem lookup_append_pair (pd : PairDict) (p r : Nat × Nat) (c : Nat) (h : pd.lookup p = none) :
    List.lookup r (pd ++ [(p, c)]) = if r = p then some c else pd.lookup r := by
  rw [List.lookup_append, List.lookup_cons, List.lookup_nil]
  by_cases hr : r = p
  · subst hr
    simp [h]
  · rw [beq_false_of_ne hr, if_neg hr]
    exact Option.or_none

/-- A sequence with a code after an entry is added is the new one, or had that code before. -/
theorem codeIn_append_new_cases {m next c : Nat} {d : Dict} {q r : List Nat} (hq : 2 ≤ q.length)
    (hnew : codeIn m d q = none) (hr : codeIn m (d ++ [(q, next)]) r = some c) :
    (r = q ∧ c = next) ∨ (r ≠ q ∧ codeIn m d r = some c) := by
  rw [codeIn_append_new hq hnew] at hr
  split at hr
  · next h => exact .inl ⟨h, (Option.some.inj hr).symm⟩
  · next h => exact .inr ⟨h, hr⟩

/-- An unknown extension of a known sequence gets the next code in both forms. -/
theorem PairForm.add {m next cur k : Nat} {d : Dict} {pd : PairDict} {q : List Nat} (h : PairForm m next d pd)
    (hq : codeIn m d q = some cur) (hnew : codeIn m d (q ++ [k]) = none) :
    PairForm m (next + 1) (d ++ [(q ++ [k], next)]) (pd ++ [((cur, k), next)]) := by
  have hlen := two_le_length_append_singleton (codeIn_ne_nil hq) k
  have hcur := h.code_lt q cur hq
  have hpair (p : Nat × Nat) := lookup_append_pair pd (cur, k) p next (h.lookup_eq q cur k hq ▸ hnew)
  exact {
    code_lt := by
      intro r c hr
      rcases codeIn_append_new_cases hlen hnew hr with ⟨_, rfl⟩ | ⟨_, hr⟩
      · exact Nat.lt_succ_self _
      · exact (h.code_lt r c hr).trans (Nat.lt_succ_self _)
    code_inj := by
      intro r r' c hr hr'
      rcases codeIn_append_new_cases hlen hnew hr with ⟨rfl, rfl⟩ | ⟨_, hr⟩ <;>
        rcases codeIn_append_new_cases hlen hnew hr' with ⟨rfl, hc⟩ | ⟨_, hr'⟩
      · rfl
      · exact absurd (h.code_lt r' _ hr') (Nat.lt_irrefl _)
      · exact absurd (hc ▸ h.code_lt r c hr) (Nat.lt_irrefl _)
      · exact h.code_inj r r' c hr hr'
    prefix_known := by
      intro r j hne hr
      rw [codeIn_append_new hlen hnew] at hr ⊢
      split at hr
      · cases hr
      · rw [if_neg, h.prefix_known r j hne hr]
        intro heq
        obtain ⟨rfl, _⟩ := List.append_inj' heq rfl
        simp [hq] at hr
    lookup_eq := by
      intro r c j hr
      rw [codeIn_append_new hlen hnew, hpair]
      rcases codeIn_append_new_cases hlen hnew hr with ⟨rfl, rfl⟩ | ⟨_, hold⟩
      · rw [if_neg (by simp), if_neg (by simp only [Prod.mk.injEq]; omega), h.fresh c j (Nat.le_refl _)]
        exact h.prefix_known _ j (by simp) hnew
      · have hiff : r ++ [j] = q ++ [k] ↔ (c, j) = (cur, k) := by
          constructor
          · intro heq
            obtain ⟨rfl, hj⟩ := List.append_inj' heq rfl
            obtain rfl : c = cur := Option.some.inj (hold.symm.trans hq)
            rw [List.singleton_inj.mp hj]
          · intro heq
            obtain ⟨hc, hj⟩ := Prod.mk.inj heq
            rw [h.code_inj r q c hold (hc ▸ hq), hj]
        simp only [hiff, h.lookup_eq r c j hold]
    fresh := by
      intro c j hc
      rw [hpair, if_neg (by simp only [Prod.mk.injEq]; omega)]
      exact h.fresh c j (by omega) }

/-- The two forms emit the same codes from any code table on. -/
theorem compressFrom_eq_registers {m w next cur : Nat} {d : Dict} {pd : PairDict} {buf ks : List Nat}
    (h : PairForm m next d pd) (hbuf : codeIn m d buf = some cur) (hks : ∀ k ∈ ks, k < 2 ^ m) :
    compressFrom m w next d buf ks = some (compressRegistersFrom m w next pd cur ks) := by
  induction ks generalizing w next cur d pd buf with
  | nil => simp [compressFrom, compressRegistersFrom, hbuf]
  | cons k ks ih =>
    obtain ⟨hk, hks⟩ := List.forall_mem_cons.mp hks
    rw [compressFrom, compressRegistersFrom, ← h.lookup_eq buf cur k hbuf]
    cases hext : codeIn m d (buf ++ [k]) with
    | some c => simpa using ih h hext hks
    | none =>
      simp only [Option.isSome_none, Bool.false_eq_true, if_false, hbuf]
      split
      · simp [ih (.empty m) (codeIn_singleton _ hk) hks]
      · simp [ih (h.add hbuf hext) (codeIn_singleton _ hk) hks]

/-- Settles O48: the simulation `PairForm` holds of the emptied tables and is kept by each index. -/
theorem registerFormEmitsSameCodes : Obligations.RegisterFormEmitsSameCodes := by
  unfold Obligations.RegisterFormEmitsSameCodes
  intro sf ks _ hne hlegal
  have hlegal' : ∀ k ∈ ks, k < 2 ^ minCodeSize sf := fun k hk =>
    Nat.lt_of_lt_of_le (hlegal k hk) (Nat.pow_le_pow_right (by omega) (le_minCodeSize sf).2)
  cases ks with
  | nil => exact absurd rfl hne
  | cons k ks =>
    obtain ⟨hk, hks⟩ := List.forall_mem_cons.mp hlegal'
    refine ⟨_, ?_, rfl⟩
    rw [compress, compressFrom_eq_registers (.empty _) (codeIn_singleton _ hk) hks]
    rfl

end Sys2Proof.Machine

/-! PROOFS of the memory family (20_memory): how many bytes a command appends to the output stream, and that the reads
change nothing and repeat. -/

namespace Sys2Proof.Machine

/-! ### A command that succeeds -/

/-- A command but SYS_RESET that leaves the block unfaulted found it unfaulted, and had its effect. -/
theorem exec_next_effect {i : Instr} {s t : State} (h : exec i s = .next t) (ht : t.fault = none)
    (hi : i ≠ .sysReset) : s.fault = none ∧ ∃ v s', Effect i s s' ∧ t = s'.answer v := by
  rcases exec_next_cases h with ⟨hr, _⟩ | ⟨_, ⟨c, hc⟩, rfl⟩ | ⟨_, _, c, rfl⟩ | ⟨_, hs, he⟩
  · exact absurd hr hi
  · simp [hc] at ht
  · simp at ht
  · exact ⟨hs, he⟩

/-! ### How many bytes a command emits (20_memory R69) -/

section OutLength
variable (s : State)

theorem bpPush_out_length (v w : Nat) : (s.bpPush v w).out.length = s.out.length + (s.bp.nbits + w) / 8 := by
  rw [bpPush_out, List.length_append, lowBytes_length]

theorem bpFlush_out_length : s.bpFlush.out.length = s.out.length + (if s.bp.nbits > 0 then 1 else 0) := by
  rw [bpFlush_out, List.length_append]
  split <;> rfl

/-- `dict_insert` emits at most the whole bytes of a 12-bit clear code above the pending bits. -/
theorem dictInsert_out_length_le (q : List Nat) :
    (s.dictInsert q).out.length ≤ s.out.length + (s.bp.nbits + Config.maxCodeWidth) / 8 := by
  rcases dictInsert_cases s q with ⟨_, h⟩ | ⟨_, h⟩
  · rw [h]
    exact (bpPush_out_length s _ _).le
  · rw [h]
    exact Nat.le_add_right _ _

end OutLength

/-- At most 7 pending bits, a code and a clear code leave: 31 bits, so 3 whole bytes. -/
theorem takeIndex_out_length_le {s t : State} {k : Nat} (hw : s.lzw.w ≤ Config.maxCodeWidth) (hb : s.bp.nbits ≤ 7)
    (h : s.takeIndex k = some t) : t.out.length ≤ s.out.length + 3 := by
  rcases takeIndex_cases h with ⟨_, rfl⟩ | ⟨_, _, rfl⟩ | ⟨c, _, _, _, rfl⟩
  · exact Nat.le_add_right _ _
  · exact Nat.le_add_right _ _
  · have hle := dictInsert_out_length_le (s.bpPush c s.lzw.w) (s.lzw.buf ++ [k])
    rw [bpPush_out_length, bpPush_nbits] at hle
    rw [setBuf_out]
    unfold Config.maxCodeWidth at hw hle
    omega

/-- `n` is a number of bytes that R69 allows the command to emit from `s`. -/
def MayEmit (s : State) (n : Nat) : Instr → Prop
  | .ctSerialize u => n = 3 * (s.bank u).declaredLength
  | .lzwStart _ => n ≤ 1
  | .lzwSym _ => n ≤ 3
  | .lzwPix _ => n ≤ 3
  | .lzwEnd => 1 ≤ n ∧ n ≤ 4
  | .bpPush _ _ => n ≤ 2
  | .bpFlush => n ≤ 1
  | .sysNop | .sysReset | .sysStatus | .packTcf .. | .packIcf .. | .packGcf .. | .ctNew _ | .ctInsert .. | .ctLookup ..
  | .ctColorAt .. | .ctReserve _ | .ctTransp _ | .ctSize _ | .ctDeclen _ | .ctBytelen _ | .ctUlen _ | .lzwNext => n = 0

theorem mayEmit_zero_of_readOnly {i : Instr} (hi : readOnly i = true) (s : State) : MayEmit s 0 i := by
  cases i with
  | ctSerialize _ | lzwEnd => cases hi
  | _ => simp [MayEmit]

theorem Effect.mayEmit {i : Instr} {s t : State} (h : Effect i s t) (hs : s.Inv) :
    MayEmit s (t.out.length - s.out.length) i := by
  obtain ⟨hbanks, hl, hb, _⟩ := s.inv_iff.mp hs
  have ht := ((Lzw.inv_iff _).mp hl).1
  have hw : s.lzw.w ≤ 12 := ht.w_le
  cases h with
  | read hr =>
    rw [Nat.sub_self]
    exact mayEmit_zero_of_readOnly hr s
  | ctSerialize _ => simp [MayEmit, serialBytes_length]
  | @lzwStart u _ _ =>
    have hm := minCodeSize_le (hbanks u).sizeField_le
    simp only [MayEmit, bpPush_out_length, openStream_out, openStream_nbits, openStream_w]
    omega
  | lzwSym _ _ h | lzwPix _ _ _ h => exact Nat.sub_le_iff_le_add'.mpr (takeIndex_out_length_le hw hb h)
  | lzwEnd _ _ =>
    have hlo := ht.lt_w
    have hm := (le_minCodeSize s.lzw.sf).1
    rw [← ht.m_eq] at hm
    simp only [MayEmit, closeStream_out, bpFlush_out_length, bpPush_out_length, bpPush_nbits]
    split <;> omega
  | bpPush _ _ _ _ =>
    simp only [MayEmit, bpPush_out_length]
    omega
  | bpFlush _ =>
    simp only [MayEmit, bpFlush_out_length]
    split <;> omega
  | _ => simp [MayEmit]

/-- A full colour table is the longest run of bytes one command emits. -/
theorem MayEmit.le {s : State} (hs : s.Inv) {i : Instr} {n : Nat} (hn : MayEmit s n i) : n ≤ 768 := by
  cases i with
  | ctSerialize u =>
    obtain ⟨_, _, _, _, _, hle, _⟩ := derivedSizesAreInRange (s.bank u) ((s.inv_iff.mp hs).1 u)
    exact hn.trans_le hle
  | _ =>
    simp only [MayEmit] at hn
    omega

/-- Settles O50, by `Effect.mayEmit`: the bytes are those of the pushes, the flush and the serialised table. -/
theorem bytesPerCommand : Obligations.BytesPerCommand := by
  unfold Obligations.BytesPerCommand
  intro i s t hs _ h ht hi
  obtain ⟨_, v, s', he, rfl⟩ := exec_next_effect h ht hi
  obtain ⟨bs, hbs⟩ := he.out_prefix
  have hn : MayEmit s bs.length i := by
    have := he.mayEmit hs
    rwa [← hbs, List.length_append, Nat.add_sub_cancel_left] at this
  refine ⟨bs, hbs.symm, hn.le hs, ?_, ?_, ?_, ?_, ?_, ?_, ?_⟩
  · rintro u rfl; exact hn
  · rintro u rfl; exact hn
  · rintro k rfl; exact hn
  · rintro c rfl; exact hn
  · rintro rfl; exact hn
  · rintro v w rfl; exact hn
  · rintro rfl; exact hn

/-! ### The reads (20_memory R71) -/

theorem Effect.eq_of_readOnly {i : Instr} {s t : State} (h : Effect i s t) (hi : readOnly i = true) : t = s := by
  cases h with
  | read _ => rfl
  | _ => simp [readOnly] at hi

/-- From two states the same reply: the same value, each state left as it is, or the same fault raised. -/
inductive SameReply (s t : State) : Result → Result → Prop where
  | value (v : Nat) : SameReply s t (respond v s) (respond v t)
  | fault (c : FaultCode) : SameReply s t (raiseFault c s) (raiseFault c t)

theorem SameReply.unlessFaulted {s t : State} {r r' : Result} (h : SameReply s t r r') (hs : s.fault = none)
    (ht : t.fault = none) : SameReply s t (unlessFaulted s r) (unlessFaulted t r') := by
  rwa [unlessFaulted_none hs, unlessFaulted_none ht]

/-- A reply that leaves no fault is a value. -/
theorem SameReply.value_of_next {s t u : State} {r : Result} (h : SameReply s t (.next u) r) (hu : u.fault = none) :
    ∃ v, u = s.answer v ∧ r = respond v t := by
  cases h with
  | value v => exact ⟨v, rfl, rfl⟩
  | fault c => cases hu

theorem sameReply_packAndRespond (fields : List (Nat × Nat)) (s t : State) :
    SameReply s t (packAndRespond fields s) (packAndRespond fields t) := by
  unfold packAndRespond
  split
  · exact .value _
  · exact .fault _

/-- No read looks at the ports: an answer given before it leaves its reply as it is. -/
theorem exec_sameReply_answer {i : Instr} (hi : readOnly i = true) {s : State} (hs : s.fault = none) (w : Nat) :
    SameReply s (s.answer w) (exec i s) (exec i (s.answer w)) := by
  cases i with
  | sysNop | sysStatus | lzwNext => exact (SameReply.value _).unlessFaulted hs hs
  | ctSize u | ctDeclen u | ctBytelen u | ctUlen u =>
    refine SameReply.unlessFaulted ?_ hs hs
    rw [answer_bank]
    exact .value _
  | packTcf a b c d | packIcf a b c d => exact (sameReply_packAndRespond _ _ _).unlessFaulted hs hs
  | packGcf a b c =>
    refine SameReply.unlessFaulted ?_ hs hs
    split
    · exact .fault _
    · split
      · exact .fault _
      · exact .value _
  | ctLookup u c =>
    refine SameReply.unlessFaulted ?_ hs hs
    rw [answer_bank]
    split
    · exact .fault _
    · exact .value _
  | ctColorAt u k =>
    refine SameReply.unlessFaulted ?_ hs hs
    rw [answer_bank]
    split
    · exact .value _
    · exact .fault _
  | _ => cases hi

/-- A read that succeeds answers a value, and answers it again behind that answer. -/
theorem exec_readOnly_repeats {i : Instr} {s t : State} (hi : readOnly i = true) (h : exec i s = .next t)
    (ht : t.fault = none) : s.fault = none ∧ ∃ v, t = s.answer v ∧ exec i t = respond v t := by
  have hreset : i ≠ .sysReset := by
    rintro rfl
    cases hi
  obtain ⟨hs, v, s', he, rfl⟩ := exec_next_effect h ht hreset
  obtain rfl := he.eq_of_readOnly hi
  have hsame := exec_sameReply_answer hi hs v
  rw [h] at hsame
  exact ⟨hs, hsame.value_of_next ht⟩

theorem answer_sameBlock (s : State) (v : Nat) : SameBlock s (s.answer v) := ⟨rfl, ⟨rfl, rfl⟩, rfl, rfl⟩

/-- Settles O54, by `exec_readOnly_repeats`: all that is written is the response. -/
theorem readsChangeNothing : Obligations.ReadsChangeNothing := by
  unfold Obligations.ReadsChangeNothing
  intro i s t hform h ht
  have hi : readOnly i = true := by
    rcases hform with ⟨_, _, rfl⟩ | ⟨_, _, rfl⟩ | ⟨_, rfl⟩ | ⟨_, rfl⟩ | ⟨_, rfl⟩ | ⟨_, rfl⟩ | rfl | rfl |
      ⟨_, _, _, _, rfl⟩ | ⟨_, _, _, _, rfl⟩ | ⟨_, _, _, rfl⟩ <;> rfl
  obtain ⟨hs, v, rfl, hv⟩ := exec_readOnly_repeats hi h ht
  exact ⟨answer_sameBlock s v, _, _, hv, answer_sameBlock s v, rfl, by simp [Answers, hs]⟩

end Sys2Proof.Machine

/-! PROOFS of the encoding family (30_encoding): the decoder against the encoder and against the opcode table, the response
word, and what an illegal word does. -/

namespace Sys2Proof.Laws

/-! ### The operand fields of a format (30_encoding R82) -/

/-- `i` with its operands read from `arg` as its format reads them; a bank named by the opcode stays. -/
def readOperands (i : Instr) (arg : Nat) : Instr :=
  match i with
  | .packTcf _ _ _ _ => .packTcf (bitsOf arg 15 12) (bitsOf arg 11 8) (bitsOf arg 7 4) (bitsOf arg 3 0)
  | .packIcf _ _ _ _ => .packIcf (bitsOf arg 15 12) (bitsOf arg 11 8) (bitsOf arg 7 4) (bitsOf arg 3 0)
  | .packGcf _ _ _ => .packGcf (bitsOf arg 11 8) (bitsOf arg 7 4) (bitsOf arg 3 0)
  | .ctInsert t _ => .ctInsert t (BitVec.ofNat 24 arg)
  | .ctLookup t _ => .ctLookup t (BitVec.ofNat 24 arg)
  | .ctColorAt t _ => .ctColorAt t (bitsOf arg 15 0)
  | .lzwStart _ => .lzwStart (bankOfBit (bitsOf arg 0 0))
  | .lzwSym _ => .lzwSym (bitsOf arg 15 0)
  | .lzwPix _ => .lzwPix (BitVec.ofNat 24 arg)
  | .bpPush _ _ => .bpPush (bitsOf arg 11 0) (bitsOf arg 15 12)
  | i => i

theorem bitsOf_lt (v hi lo : Nat) : bitsOf v hi lo < 2 ^ (hi - lo + 1) := Nat.mod_lt _ (Nat.two_pow_pos _)

theorem fitsSlot_bitsOf (v : Nat) {hi lo : Nat} (h : hi - lo = 3) : fitsSlot (bitsOf v hi lo) = true := by
  have := bitsOf_lt v hi lo
  rw [h] at this
  exact decide_eq_true this

theorem bitsOf_zero_of_lt {v hi : Nat} (h : v < 2 ^ (hi + 1)) : bitsOf v hi 0 = v := by
  rw [bitsOf_eq, Nat.pow_zero, Nat.div_one, Nat.sub_zero, Nat.mod_eq_of_lt h]

/-- The slots of format N4 read back what was laid into them. -/
theorem bitsOf_argN4 {a b c d : Nat} (ha : a < 2 ^ 4) (hb : b < 2 ^ 4) (hc : c < 2 ^ 4) (hd : d < 2 ^ 4) :
    bitsOf (argN4 a b c d) 15 12 = a ∧ bitsOf (argN4 a b c d) 11 8 = b ∧ bitsOf (argN4 a b c d) 7 4 = c ∧
      bitsOf (argN4 a b c d) 3 0 = d := by
  simp only [bitsOf, argN4]
  omega

/-- Laying the slots of format N4 out again gives the 16 bits they were read from. -/
theorem argN4_bitsOf {arg : Nat} (h : arg < 2 ^ 16) :
    argN4 (bitsOf arg 15 12) (bitsOf arg 11 8) (bitsOf arg 7 4) (bitsOf arg 3 0) = arg := by
  simp only [bitsOf, argN4]
  omega

/-- Every command reads its operands back from its own operand field. -/
theorem readOperands_operands {i : Instr} (h : i.wellFormed = true) : readOperands i i.operands = i := by
  cases i with
  | packTcf a b c d | packIcf a b c d =>
    simp only [Instr.wellFormed, fitsSlot, Bool.and_eq_true, decide_eq_true_eq] at h
    obtain ⟨⟨⟨ha, hb⟩, hc⟩, hd⟩ := h
    obtain ⟨h0, h1, h2, h3⟩ := bitsOf_argN4 ha hb hc hd
    simp only [readOperands, Instr.operands, h0, h1, h2, h3]
  | packGcf a b c =>
    simp only [Instr.wellFormed, fitsSlot, Bool.and_eq_true, decide_eq_true_eq] at h
    obtain ⟨⟨ha, hb⟩, hc⟩ := h
    obtain ⟨-, h1, h2, h3⟩ := bitsOf_argN4 (Nat.two_pow_pos 4) ha hb hc
    simp only [readOperands, Instr.operands, h1, h2, h3]
  | ctColorAt _ k | lzwSym k =>
    have hk : bitsOf k 15 0 = k := bitsOf_zero_of_lt (by simpa [Instr.wellFormed, fitsIndex] using h)
    simp only [readOperands, Instr.operands, hk]
  | bpPush v width =>
    simp only [Instr.wellFormed, fitsCode, fitsSlot, Bool.and_eq_true, decide_eq_true_eq] at h
    have hv : bitsOf (width * 2 ^ 12 + v) 11 0 = v := by simp only [bitsOf]; omega
    have hw : bitsOf (width * 2 ^ 12 + v) 15 12 = width := by simp only [bitsOf]; omega
    simp only [readOperands, Instr.operands, hv, hw]
  | ctInsert _ c | ctLookup _ c | lzwPix c =>
    simp only [readOperands, Instr.operands, BitVec.ofNat_toNat, BitVec.setWidth_eq]
  | lzwStart t => cases t <;> rfl
  | _ => rfl

/-- The operands read from a field whose unused bits are 0 fit their format, and laid out again are that field. -/
theorem wellFormed_readOperands {i : Instr} {arg : Nat} (h : arg < 2 ^ i.usedBits) :
    (readOperands i arg).wellFormed = true ∧ (readOperands i arg).operands = arg := by
  cases i with
  | packTcf | packIcf =>
    exact ⟨by simp [readOperands, Instr.wellFormed, fitsSlot_bitsOf], argN4_bitsOf h⟩
  | packGcf =>
    have h0 : bitsOf arg 15 12 = 0 := by simp only [bitsOf, Instr.usedBits] at h ⊢; omega
    have hn : argN4 _ _ _ _ = arg :=
      argN4_bitsOf (Nat.lt_of_lt_of_le h (Nat.pow_le_pow_right Nat.two_pos (by decide : 12 ≤ 16)))
    exact ⟨by simp [readOperands, Instr.wellFormed, fitsSlot_bitsOf], by rwa [h0] at hn⟩
  | ctInsert | ctLookup | lzwPix => exact ⟨rfl, Nat.mod_eq_of_lt h⟩
  | ctColorAt | lzwSym => exact ⟨decide_eq_true (bitsOf_lt arg 15 0), bitsOf_zero_of_lt h⟩
  | lzwStart =>
    have : arg = 0 ∨ arg = 1 := by simp only [Instr.usedBits] at h; omega
    rcases this with rfl | rfl <;> exact ⟨rfl, rfl⟩
  | bpPush =>
    refine ⟨Bool.and_eq_true_iff.mpr ⟨decide_eq_true (bitsOf_lt arg 11 0), fitsSlot_bitsOf arg rfl⟩, ?_⟩
    simp only [readOperands, Instr.operands, bitsOf, Instr.usedBits] at h ⊢
    omega
  | _ => exact ⟨rfl, (Nat.lt_one_iff.mp h).symm⟩

/-! ### What the decoder accepts (30_encoding R81, R86) -/

/-- Behind the opcode of `i` the decoder accepts every operand field whose unused bits are 0, and reads `i`'s
operands. -/
theorem decodeFields_opcode (i : Instr) {arg : Nat} (h : arg < 2 ^ i.usedBits) :
    decodeFields i.opcode arg = .ok (readOperands i arg) := by
  cases i with
  | sysNop => exact (decodeFields_sysNop arg).trans (withUsedBits_of_lt h _ _)
  | sysReset => exact (decodeFields_sysReset arg).trans (withUsedBits_of_lt h _ _)
  | sysStatus => exact (decodeFields_sysStatus arg).trans (withUsedBits_of_lt h _ _)
  | packTcf => exact (decodeFields_packTcf arg).trans (withUsedBits_of_lt h _ _)
  | packIcf => exact (decodeFields_packIcf arg).trans (withUsedBits_of_lt h _ _)
  | packGcf => exact (decodeFields_packGcf arg).trans (withUsedBits_of_lt h _ _)
  | ctInsert t | ctLookup t => exact decodeFields_ct t (by decide) arg
  | ctNew t | ctColorAt t | ctReserve t | ctTransp t | ctSize t | ctDeclen t | ctBytelen t | ctUlen t | ctSerialize t =>
    exact (decodeFields_ct t (by decide) arg).trans (withUsedBits_of_lt h _ _)
  | lzwStart => exact (decodeFields_lzwStart arg).trans (withUsedBits_of_lt h _ _)
  | lzwSym => exact (decodeFields_lzwSym arg).trans (withUsedBits_of_lt h _ _)
  | lzwPix => exact decodeFields_lzwPix arg
  | lzwEnd => exact (decodeFields_lzwEnd arg).trans (withUsedBits_of_lt h _ _)
  | lzwNext => exact (decodeFields_lzwNext arg).trans (withUsedBits_of_lt h _ _)
  | bpPush => exact (decodeFields_bpPush arg).trans (withUsedBits_of_lt h _ _)
  | bpFlush => exact (decodeFields_bpFlush arg).trans (withUsedBits_of_lt h _ _)

/-- An accepted CT function names a command of the bank. -/
theorem decodeCt_ok {op fn arg : Nat} {t : BankId} {i : Instr} (harg : arg < 2 ^ 24)
    (h : decodeCt op fn t arg = .ok i) : i.opcode = ctOpcode t fn ∧ arg < 2 ^ i.usedBits := by
  unfold decodeCt at h
  split at h
  -- CT_INSERT and CT_LOOKUP use the whole operand field.
  case h_2 | h_3 => cases h; exact ⟨rfl, harg⟩
  case h_12 => cases h
  all_goals
    obtain ⟨hu, rfl⟩ := withUsedBits_ok h
    exact ⟨rfl, hu⟩

/-- A CT opcode is put together from its function and its bank bit (30_encoding R81). -/
theorem ctOpcode_of_bits {op : Nat} (hop : op < 2 ^ 8) (h : bitsOf op 7 5 = 0b001) :
    ctOpcode (bankOfBit (bitsOf op 4 4)) (bitsOf op 3 0) = op := by
  have hbit : bitsOf op 4 4 = 0 ∨ bitsOf op 4 4 = 1 := by simp only [bitsOf]; omega
  rcases hbit with hb | hb <;> rw [hb] <;> simp only [bitsOf] at h hb ⊢
  · change 0x20 + _ = op
    omega
  · change 0x30 + _ = op
    omega

/-- A command the decoder accepts has the word's opcode, and its format uses every bit set in the operand field. -/
theorem decodeFields_ok {op arg : Nat} {i : Instr} (hop : op < 2 ^ 8) (harg : arg < 2 ^ 24)
    (h : decodeFields op arg = .ok i) : i.opcode = op ∧ arg < 2 ^ i.usedBits := by
  unfold decodeFields at h
  split at h
  · next hct => exact ctOpcode_of_bits hop hct ▸ decodeCt_ok harg h
  · split at h
    -- LZW_PIX uses the whole operand field.
    case h_9 => cases h; exact ⟨rfl, harg⟩
    case h_14 => cases h
    all_goals
      obtain ⟨hu, rfl⟩ := withUsedBits_ok h
      exact ⟨rfl, hu⟩

theorem opField_lt (cmd : Word) : opField cmd < 2 ^ 8 := BitVec.isLt _

theorem argField_lt (cmd : Word) : argField cmd < 2 ^ 24 := BitVec.isLt _

/-- A word is its two fields side by side (30_encoding R80). -/
theorem ofNat_fields (cmd : Word) : BitVec.ofNat 32 (opField cmd * 2 ^ 24 + argField cmd) = cmd := by
  rw [opField_eq, argField_eq, Nat.div_add_mod', BitVec.ofNat_toNat, BitVec.setWidth_eq]

/-- A word decodes to `i` exactly when its opcode is `i`'s, the unused bits are 0 and the operands are `i`'s. -/
theorem decode_ok_iff {cmd : Word} {i : Instr} :
    decode cmd = .ok i ↔
      opField cmd = i.opcode ∧ argField cmd < 2 ^ i.usedBits ∧ readOperands i (argField cmd) = i := by
  constructor
  · intro h
    obtain ⟨hop, hu⟩ := decodeFields_ok (opField_lt cmd) (argField_lt cmd) h
    have hread := decodeFields_opcode i hu
    rw [hop] at hread
    exact ⟨hop.symm, hu, by simpa using hread.symm.trans h⟩
  · rintro ⟨hop, hu, hread⟩
    rw [decode, hop, decodeFields_opcode i hu, hread]

/-- Settles O1: behind the command's own opcode the operands are read back from where they were laid. -/
theorem decodeOfEncodeIsInstr : Obligations.DecodeOfEncodeIsInstr := by
  unfold Obligations.DecodeOfEncodeIsInstr
  intro i hwf
  obtain ⟨hop, harg, hu⟩ := EncodedRow.of_wellFormed i hwf
  exact decode_ok_iff.mpr ⟨hop, by rwa [harg], by rw [harg, readOperands_operands hwf]⟩

/-- Settles O2: the operands read from a field that uses only the format's bits are well-formed and are that field. -/
theorem encodeOfDecodeIsWord : Obligations.EncodeOfDecodeIsWord := by
  unfold Obligations.EncodeOfDecodeIsWord
  intro cmd i h
  obtain ⟨hop, hu, hread⟩ := decode_ok_iff.mp h
  obtain ⟨hwf, harg⟩ := wellFormed_readOperands hu
  rw [hread] at hwf harg
  exact ⟨hwf, by rw [encode, harg, ← hop, ofNat_fields]⟩

/-- A word is legal exactly when some command has its opcode and a format that uses every bit set in its operand field. -/
theorem exists_decode_ok_iff (cmd : Word) :
    (∃ i, decode cmd = .ok i) ↔ ∃ i : Instr, opField cmd = i.opcode ∧ argField cmd < 2 ^ i.usedBits := by
  constructor
  · rintro ⟨i, h⟩
    obtain ⟨hop, hu, -⟩ := decode_ok_iff.mp h
    exact ⟨i, hop, hu⟩
  · rintro ⟨i, hop, hu⟩
    exact ⟨_, by rw [decode, hop, decodeFields_opcode i hu]⟩

/-! ### The rows of the opcode table (30_encoding R86) -/

/-- The opcode bits a row compares: all, but for the bank bit of a CT command. -/
def opMask (op : Nat) : BitVec 8 := if bitsOf op 7 5 = 0b001 then 0xEF else 0xFF

/-- The row of the table whose opcode is `op` and whose format uses the low `used` bits of the operand field. -/
def rowOf (op used : Nat) : Word × Word :=
  ((BitVec.ofNat 8 op &&& opMask op) ++ 0#24, opMask op ++ (BitVec.allOnes 24 <<< used))

/-- One command of each row, in the table's order. -/
def rowCommands : List Instr :=
  [.sysNop, .sysReset, .sysStatus, .packTcf 0 0 0 0, .packIcf 0 0 0 0, .packGcf 0 0 0, .ctNew .bank0,
   .ctInsert .bank0 0, .ctLookup .bank0 0, .ctColorAt .bank0 0, .ctReserve .bank0, .ctTransp .bank0, .ctSize .bank0,
   .ctDeclen .bank0, .ctBytelen .bank0, .ctUlen .bank0, .ctSerialize .bank0, .lzwStart .bank0, .lzwSym 0, .lzwPix 0,
   .lzwEnd, .lzwNext, .bpPush 0 0, .bpFlush]

theorem tableRows_eq : tableRows = rowCommands.map fun i => rowOf i.opcode i.usedBits := by decide

/-- Every command has its row in the table. -/
theorem rowOf_mem (i : Instr) : rowOf i.opcode i.usedBits ∈ tableRows := by
  cases i with
  | ctNew t | ctInsert t | ctLookup t | ctColorAt t | ctReserve t | ctTransp t | ctSize t | ctDeclen t | ctBytelen t
    | ctUlen t | ctSerialize t => cases t <;> simp only [Instr.opcode, Instr.usedBits] <;> decide
  | _ =>
    simp only [Instr.opcode, Instr.usedBits]
    decide

/-- No bit at or above `used` is set exactly when the number is below `2 ^ used`. -/
theorem and_allOnes_shiftLeft_eq_zero_iff (a : BitVec 24) (used : Nat) :
    a &&& (BitVec.allOnes 24 <<< used) = 0#24 ↔ a.toNat < 2 ^ used := by
  have hnat : (a >>> used <<< used).toNat = a.toNat / 2 ^ used * 2 ^ used := by
    rw [BitVec.toNat_shiftLeft, BitVec.toNat_ushiftRight, Nat.shiftLeft_eq, Nat.shiftRight_eq_div_pow]
    exact Nat.mod_eq_of_lt (Nat.lt_of_le_of_lt (Nat.div_mul_le_self _ _) a.isLt)
  rw [← BitVec.shiftLeft_ushiftRight, ← BitVec.toNat_inj, hnat, BitVec.toNat_zero, Nat.mul_eq_zero,
    or_iff_left (Nat.two_pow_pos used).ne', Nat.div_eq_zero_iff_lt (Nat.two_pow_pos used)]

theorem append_eq_append_iff (a b : BitVec 8) (c d : BitVec 24) : a ++ c = b ++ d ↔ a = b ∧ c = d := by
  constructor
  · intro h
    have h1 := congrArg (BitVec.extractLsb' 24 8) h
    have h2 := congrArg (BitVec.extractLsb' 0 24) h
    rw [BitVec.extractLsb'_append_eq_left, BitVec.extractLsb'_append_eq_left] at h1
    rw [BitVec.extractLsb'_append_eq_right, BitVec.extractLsb'_append_eq_right] at h2
    exact ⟨h1, h2⟩
  · rintro ⟨rfl, rfl⟩
    rfl

/-- A word matches a row when its opcode agrees under the row's opcode mask and the unused operand bits are 0. -/
theorem matchesRow_rowOf (cmd : Word) (op used : Nat) :
    matchesRow cmd (rowOf op used) = true ↔
      cmd.extractLsb' 24 8 &&& opMask op = BitVec.ofNat 8 op &&& opMask op ∧ argField cmd < 2 ^ used := by
  have hcmd : cmd.extractLsb' 24 8 ++ cmd.extractLsb' 0 24 = cmd :=
    (BitVec.extractLsb'_append_extractLsb'_eq_extractLsb' rfl).trans BitVec.extractLsb'_eq_self
  rw [matchesRow, beq_iff_eq, ← hcmd, rowOf, BitVec.and_append, append_eq_append_iff,
    and_allOnes_shiftLeft_eq_zero_iff, hcmd, argField]

/-- `i` on bank `u`, where `i` is a CT command. -/
def onBank (u : BankId) (i : Instr) : Instr :=
  match i with
  | .ctNew _ => .ctNew u
  | .ctInsert _ c => .ctInsert u c
  | .ctLookup _ c => .ctLookup u c
  | .ctColorAt _ k => .ctColorAt u k
  | .ctReserve _ => .ctReserve u
  | .ctTransp _ => .ctTransp u
  | .ctSize _ => .ctSize u
  | .ctDeclen _ => .ctDeclen u
  | .ctBytelen _ => .ctBytelen u
  | .ctUlen _ => .ctUlen u
  | .ctSerialize _ => .ctSerialize u
  | i => i

theorem onBank_usedBits (u : BankId) (i : Instr) : (onBank u i).usedBits = i.usedBits := by cases i <;> rfl

/-- The bank bit is the one bit that the mask 0xEF leaves out. -/
theorem eq_masked_or_bank_bit (x : BitVec 8) : x = x &&& 0xEF#8 ∨ x = (x &&& 0xEF#8) + 0x10#8 := by
  revert x
  decide

theorem opMask_ctOpcode (t : BankId) {fn : Nat} (h : fn < 16) : opMask (ctOpcode t fn) = 0xEF#8 := by
  revert fn
  cases t <;> decide

/-- Under the mask of a CT row the opcodes of the two banks are one. -/
theorem ctOpcode_masked (t : BankId) {fn : Nat} (h : fn < 16) :
    BitVec.ofNat 8 (ctOpcode t fn) &&& 0xEF#8 = BitVec.ofNat 8 (0x20 + fn) := by
  revert fn
  cases t <;> decide

/-- An opcode that a CT row compares equal to function `fn`'s is that function's, on one of the banks. -/
theorem ctOpcode_of_masked {x : BitVec 8} {t : BankId} {fn : Nat} (hfn : fn < 16)
    (h : x &&& opMask (ctOpcode t fn) = BitVec.ofNat 8 (ctOpcode t fn) &&& opMask (ctOpcode t fn)) :
    ∃ u, x.toNat = ctOpcode u fn := by
  rw [opMask_ctOpcode t hfn, ctOpcode_masked t hfn] at h
  rcases eq_masked_or_bank_bit x with hx | hx <;> rw [hx, h]
  · exact ⟨.bank0, by simp only [BitVec.toNat_ofNat, ctOpcode]; omega⟩
  · exact ⟨.bank1, by simp only [BitVec.toNat_add, BitVec.toNat_ofNat, ctOpcode]; omega⟩

/-- An opcode that any other row compares equal to its own is its own. -/
theorem opcode_of_masked {x : BitVec 8} {op : Nat} (hop : op < 2 ^ 8) (hct : bitsOf op 7 5 ≠ 0b001)
    (h : x &&& opMask op = BitVec.ofNat 8 op &&& opMask op) : x.toNat = op := by
  rw [opMask, if_neg hct] at h
  have hx : x = BitVec.ofNat 8 op := BitVec.and_allOnes.symm.trans (h.trans BitVec.and_allOnes)
  rw [hx, BitVec.toNat_ofNat, Nat.mod_eq_of_lt hop]

/-- An opcode that the row of `i` compares equal to `i`'s is `i`'s, on one of the banks. -/
theorem opcode_onBank_of_masked {x : BitVec 8} {i : Instr}
    (h : x &&& opMask i.opcode = BitVec.ofNat 8 i.opcode &&& opMask i.opcode) : ∃ u, x.toNat = (onBank u i).opcode := by
  cases i with
  | ctNew | ctInsert | ctLookup | ctColorAt | ctReserve | ctTransp | ctSize | ctDeclen | ctBytelen | ctUlen
    | ctSerialize => exact ctOpcode_of_masked (by decide) h
  | _ => exact ⟨.bank0, opcode_of_masked (EncodedRow.opcode_lt _) (by simp only [onBank, Instr.opcode]; decide) h⟩

/-- A row of the table matches a word exactly when some command has the word's opcode and a format that uses every bit set
in its operand field. -/
theorem exists_matchesRow_iff (cmd : Word) :
    (∃ row ∈ tableRows, matchesRow cmd row = true) ↔
      ∃ i : Instr, opField cmd = i.opcode ∧ argField cmd < 2 ^ i.usedBits := by
  constructor
  · rintro ⟨row, hrow, hmatch⟩
    rw [tableRows_eq, List.mem_map] at hrow
    obtain ⟨i, -, rfl⟩ := hrow
    obtain ⟨hop, hu⟩ := (matchesRow_rowOf cmd _ _).mp hmatch
    obtain ⟨u, hu'⟩ := opcode_onBank_of_masked hop
    exact ⟨onBank u i, hu', by rwa [onBank_usedBits]⟩
  · rintro ⟨i, hop, hu⟩
    have hx : cmd.extractLsb' 24 8 = BitVec.ofNat 8 i.opcode := by
      rw [← hop, opField, BitVec.ofNat_toNat, BitVec.setWidth_eq]
    exact ⟨_, rowOf_mem i, (matchesRow_rowOf cmd _ _).mpr ⟨by rw [hx], hu⟩⟩

/-- Two rows of the table differ in a bit that both compare. -/
theorem tableRows_pairwise : tableRows.Pairwise fun row other => row.1 &&& other.2 ≠ other.1 &&& row.2 := by decide

/-- Rows that match one word agree in every bit that both compare. -/
theorem matchesRow_agree {cmd : Word} {row other : Word × Word} (h : matchesRow cmd row = true)
    (h' : matchesRow cmd other = true) : row.1 &&& other.2 = other.1 &&& row.2 := by
  rw [matchesRow, beq_iff_eq] at h h'
  rw [← h, ← h', BitVec.and_assoc, BitVec.and_assoc, BitVec.and_comm row.2]

theorem matchesRow_at_most_one (cmd : Word) : (tableRows.filter (matchesRow cmd)).length ≤ 1 := by
  have hpair := tableRows_pairwise.filter (matchesRow cmd)
  have hmatch : ∀ row ∈ tableRows.filter (matchesRow cmd), matchesRow cmd row = true :=
    fun _ h => (List.mem_filter.mp h).2
  match tableRows.filter (matchesRow cmd), hpair, hmatch with
  | [], _, _ => exact Nat.zero_le 1
  | [_], _, _ => exact Nat.le_refl 1
  | row :: other :: _, hpair, hmatch =>
    have hagree := matchesRow_agree (hmatch row (by simp)) (hmatch other (by simp))
    exact absurd hagree (List.rel_of_pairwise_cons hpair (by simp))

/-- Settles O3: a row matches and the decoder accepts on one condition, that of `exists_decode_ok_iff` and
`exists_matchesRow_iff`; the unassigned opcodes are counted. -/
theorem legalWordMatchesExactlyOneRow : Obligations.LegalWordMatchesExactlyOneRow := by
  unfold Obligations.LegalWordMatchesExactlyOneRow
  refine ⟨fun cmd => ⟨?_, matchesRow_at_most_one cmd⟩, ?_⟩
  · rw [exists_decode_ok_iff, exists_matchesRow_iff]
  · decide +kernel

/-- Settles O4: each word's fields are literals, and the decoder computes. -/
theorem specWordsDecodeRight : Obligations.SpecWordsDecodeRight := by
  unfold Obligations.SpecWordsDecodeRight
  exact ⟨rfl, rfl, rfl, rfl, rfl, rfl, rfl, rfl, rfl⟩

end Sys2Proof.Laws

namespace Sys2Proof.Machine

/-! ### The response (30_encoding R84) -/

/-- What the fields of a response word tell of the fault register. -/
theorem responseWord_fields (f : Option FaultCode) (v : Nat) :
    ((responseWord f v).extractLsb' 31 1 = 1#1 ↔ f ≠ none) ∧
      ((responseWord f v).extractLsb' 24 7).toNat = faultNumber f ∧
      (f ≠ none → (responseWord f v).extractLsb' 0 24 = 0#24) := by
  cases f with
  | some c =>
    rw [responseWord_fault]
    cases c <;> decide
  | none =>
    have hF : (responseWord none v).extractLsb' 31 1 = 0#1 := by
      rw [responseWord, BitVec.extractLsb'_append_eq_of_le (by decide)]
      decide
    have hcode : (responseWord none v).extractLsb' 24 7 = 0#7 := by
      rw [responseWord, BitVec.extractLsb'_append_eq_of_le (by decide)]
      decide
    rw [hF, hcode]
    exact ⟨by decide, rfl, fun h => absurd rfl h⟩

/-- A command that answers adds one response, made from the fault register as it leaves it. -/
theorem exec_next_answers {i : Instr} {s t : State} (h : exec i s = .next t) :
    ∃ v, Answers s t (responseWord t.fault v) := by
  rcases exec_next_cases h with ⟨_, rfl⟩ | ⟨_, _, rfl⟩ | ⟨_, _, _, rfl⟩ | ⟨_, _, v, s', he, rfl⟩
  · exact ⟨0, rfl⟩
  · exact ⟨0, rfl⟩
  · exact ⟨0, rfl⟩
  · exact ⟨v, by rw [Answers, answer_responses, answer_fault, he.fault_port.2]⟩

/-- Settles O18: the one response is a `responseWord` of the fault register, whose fields tell it. -/
theorem everyCommandAnswersOnce : Obligations.EveryCommandAnswersOnce := by
  unfold Obligations.EveryCommandAnswersOnce
  intro i s t h
  obtain ⟨v, hv⟩ := exec_next_answers h
  exact ⟨_, hv, responseWord_fields t.fault v⟩

/-! ### Illegal words (30_encoding R86, 60_exceptions R255) -/

theorem execIllegal_of_unfaulted {s : State} (hs : s.fault = none) :
    execIllegal s = raiseFault .illegalCommand s := unlessFaulted_none hs _

theorem execIllegal_of_faulted {s : State} {c : FaultCode} (hs : s.fault = some c) :
    execIllegal s = .next (s.answer 0) := unlessFaulted_some hs _

/-- Settles O6: the step is `execIllegal`, which raises the fault or answers the standing one. -/
theorem illegalWordRaisesIllegalCommand : Obligations.IllegalWordRaisesIllegalCommand := by
  unfold Obligations.IllegalWordRaisesIllegalCommand
  intro s cmd rest e hc hd
  rw [step_of_decode_error hc hd]
  cases hs : s.fault with
  | none =>
    exact ⟨_, execIllegal_of_unfaulted hs, ⟨rfl, ⟨rfl, rfl⟩, rfl, rfl⟩, fun _ => ⟨rfl, rfl⟩, nofun⟩
  | some c =>
    refine ⟨_, execIllegal_of_faulted hs, answer_sameBlock s 0, nofun, ?_⟩
    rintro _ ⟨⟩
    exact ⟨hs, by simp [Answers, hs]⟩

end Sys2Proof.Machine

/-! PROOFS of the packed-field family (40_packed_bitfield): the sub-fields of a packed byte, the words of the PACK commands,
and what each command answers. -/

namespace Sys2Proof.Laws

/-! ### The words of a format with slots (30_encoding R82, R86) -/

/-- A word whose number is a well-formed command's opcode and operand field is that command's word. -/
theorem decode_ok_of_toNat {cmd : Word} {i : Instr} (hwf : i.wellFormed = true)
    (h : cmd.toNat = i.opcode * 2 ^ 24 + i.operands) : decode cmd = .ok i := by
  have hcmd : encode i = cmd := by rw [encode, ← h, BitVec.ofNat_toNat, BitVec.setWidth_eq]
  exact hcmd ▸ decodeOfEncodeIsInstr i hwf

theorem fitsSlot_toNat (f : BitVec 4) : fitsSlot f.toNat = true := decide_eq_true f.isLt

/-- The word of format N4: an opcode, eight unused bits and four slots. -/
theorem toNat_wordN4 (op : BitVec 8) (f0 f1 f2 f3 : BitVec 4) :
    (op ++ 0#8 ++ f0 ++ f1 ++ f2 ++ f3).toNat = op.toNat * 2 ^ 24 + argN4 f0.toNat f1.toNat f2.toNat f3.toNat := by
  simp only [toNat_append_add, BitVec.toNat_ofNat, argN4]
  omega

/-- The word of format N3: an opcode, twelve unused bits and three slots. -/
theorem toNat_wordN3 (op : BitVec 8) (f1 f2 f3 : BitVec 4) :
    (op ++ 0#12 ++ f1 ++ f2 ++ f3).toNat = op.toNat * 2 ^ 24 + argN4 0 f1.toNat f2.toNat f3.toNat := by
  simp only [toNat_append_add, BitVec.toNat_ofNat, argN4]
  omega

theorem two_pow_le_toNat_of_extractLsb'_ne_zero {n lo len : Nat} {a : BitVec n} (h : a.extractLsb' lo len ≠ 0#len) :
    2 ^ lo ≤ a.toNat := by
  by_contra hlt
  apply h
  apply BitVec.eq_of_toNat_eq
  rw [BitVec.extractLsb'_toNat, Nat.shiftRight_eq_div_pow, Nat.div_eq_of_lt (Nat.lt_of_not_le hlt), Nat.zero_mod,
    BitVec.toNat_zero]

/-- Behind an opcode whose format uses the low `used` bits of `arg`, a set bit at or above them makes the word illegal. -/
theorem decode_append_error {op : BitVec 8} {arg : BitVec 24} {used len : Nat} {i : Instr}
    (hrow : decodeFields op.toNat arg.toNat = withUsedBits used op.toNat arg.toNat i)
    (h : arg.extractLsb' used len ≠ 0#len) : ∃ e, decode (op ++ arg) = .error e := by
  have hle := two_pow_le_toNat_of_extractLsb'_ne_zero h
  exact ⟨_, by rw [decode, opField_append, argField_append, hrow, withUsedBits_of_le hle]⟩

end Sys2Proof.Laws

namespace Sys2Proof.Machine

/-! ### Sub-fields and bit fields (30_encoding R90, 40 R116)

A packed value is the sum of its sub-fields at the weights of their positions, so a bit field reads one summand back, and a
byte with zero reserved bits is put together from its own bit fields. -/

theorem bitsOf_packFields_tcf {h r o z : Nat} (hh : h < 2) (hr : r < 8) (ho : o < 2) (hz : z < 8) :
    bitsOf (packFields (tcfFields h r o z)) 7 7 = h ∧ bitsOf (packFields (tcfFields h r o z)) 6 4 = r ∧
    bitsOf (packFields (tcfFields h r o z)) 3 3 = o ∧ bitsOf (packFields (tcfFields h r o z)) 2 0 = z := by
  simp only [packFields_tcf, bitsOf]
  omega

theorem bitsOf_packFields_icf {h i o z : Nat} (hh : h < 2) (hi : i < 2) (ho : o < 2) (hz : z < 8) :
    bitsOf (packFields (icfFields h i o z)) 7 7 = h ∧ bitsOf (packFields (icfFields h i o z)) 6 6 = i ∧
    bitsOf (packFields (icfFields h i o z)) 5 5 = o ∧ bitsOf (packFields (icfFields h i o z)) 4 3 = 0 ∧
    bitsOf (packFields (icfFields h i o z)) 2 0 = z := by
  simp only [packFields_icf, bitsOf]
  omega

theorem bitsOf_packFields_gcf {d w t : Nat} (hd : d < 8) (hw : w < 2) (ht : t < 2) :
    bitsOf (packFields (gcfFields d w t)) 7 5 = 0 ∧ bitsOf (packFields (gcfFields d w t)) 4 2 = d ∧
    bitsOf (packFields (gcfFields d w t)) 1 1 = w ∧ bitsOf (packFields (gcfFields d w t)) 0 0 = t := by
  simp only [packFields_gcf, bitsOf]
  omega

theorem packFields_tcf_bitsOf {v : Nat} (hv : v < 256) :
    packFields (tcfFields (bitsOf v 7 7) (bitsOf v 6 4) (bitsOf v 3 3) (bitsOf v 2 0)) = v := by
  simp only [packFields_tcf, bitsOf]
  omega

theorem packFields_icf_bitsOf {v : Nat} (hv : v < 256) (hrsv : bitsOf v 4 3 = 0) :
    packFields (icfFields (bitsOf v 7 7) (bitsOf v 6 6) (bitsOf v 5 5) (bitsOf v 2 0)) = v := by
  simp only [packFields_icf, bitsOf] at hrsv ⊢
  omega

theorem packFields_gcf_bitsOf {v : Nat} (hv : v < 16) :
    packFields (gcfFields (bitsOf v 3 2) (bitsOf v 1 1) (bitsOf v 0 0)) = v := by
  simp only [packFields_gcf, bitsOf]
  omega

/-- The results of PACK_TCF are the bytes. -/
theorem lt_iff_exists_packFields_tcf (v : Nat) :
    v < 256 ↔ ∃ h r o z, h < 2 ∧ r < 8 ∧ o < 2 ∧ z < 8 ∧ packFields (tcfFields h r o z) = v := by
  constructor
  · intro hv
    exact ⟨_, _, _, _, Laws.bitsOf_lt v 7 7, Laws.bitsOf_lt v 6 4, Laws.bitsOf_lt v 3 3, Laws.bitsOf_lt v 2 0,
      packFields_tcf_bitsOf hv⟩
  · rintro ⟨h, r, o, z, hh, hr, ho, hz, rfl⟩
    rw [packFields_tcf]
    omega

/-- The results of PACK_ICF are the bytes whose reserved bits are 0. -/
theorem reserved_zero_iff_exists_packFields_icf (v : Nat) :
    v < 256 ∧ bitsOf v 4 3 = 0 ↔ ∃ h i o z, h < 2 ∧ i < 2 ∧ o < 2 ∧ z < 8 ∧ packFields (icfFields h i o z) = v := by
  constructor
  · rintro ⟨hv, hrsv⟩
    exact ⟨_, _, _, _, Laws.bitsOf_lt v 7 7, Laws.bitsOf_lt v 6 6, Laws.bitsOf_lt v 5 5, Laws.bitsOf_lt v 2 0,
      packFields_icf_bitsOf hv hrsv⟩
  · rintro ⟨h, i, o, z, hh, hi, ho, hz, rfl⟩
    obtain ⟨-, -, -, hrsv, -⟩ := bitsOf_packFields_icf hh hi ho hz
    refine ⟨?_, hrsv⟩
    rw [packFields_icf]
    omega

/-- The results of PACK_GCF are the values below 16: reserved bits 0 and a disposal of at most 3. -/
theorem lt_iff_exists_packFields_gcf (v : Nat) :
    v < 16 ↔ ∃ d w t, d ≤ 3 ∧ w < 2 ∧ t < 2 ∧ packFields (gcfFields d w t) = v := by
  constructor
  · intro hv
    exact ⟨_, _, _, Nat.le_of_lt_succ (Laws.bitsOf_lt v 3 2), Laws.bitsOf_lt v 1 1, Laws.bitsOf_lt v 0 0,
      packFields_gcf_bitsOf hv⟩
  · rintro ⟨d, w, t, hd, hw, ht, rfl⟩
    rw [packFields_gcf]
    omega

/-- Settles O26: the read-backs and the result sets of the three layouts; the 64 bytes are counted. -/
theorem packedFieldsReadBack : Obligations.PackedFieldsReadBack := by
  unfold Obligations.PackedFieldsReadBack
  refine ⟨fun _ _ _ _ => bitsOf_packFields_tcf, fun _ _ _ _ => bitsOf_packFields_icf,
    fun _ _ _ => bitsOf_packFields_gcf, lt_iff_exists_packFields_tcf, reserved_zero_iff_exists_packFields_icf, ?_,
    lt_iff_exists_packFields_gcf⟩
  decide +kernel

/-! ### What the PACK commands answer (40 R110, R112 to R114) -/

theorem exec_packTcf {s : State} (hs : s.fault = none) (h r o z : Nat) :
    exec (.packTcf h r o z) s = packAndRespond (tcfFields h r o z) s := unlessFaulted_none hs _

theorem exec_packIcf {s : State} (hs : s.fault = none) (h i o z : Nat) :
    exec (.packIcf h i o z) s = packAndRespond (icfFields h i o z) s := unlessFaulted_none hs _

/-- PACK_GCF packs its fields as the others do, apart from a disposal that fits but names no method (40 R115). -/
theorem exec_packGcf {s : State} (hs : s.fault = none) (d w t : Nat) :
    exec (.packGcf d w t) s =
      if fieldsFit (gcfFields d w t) = true ∧ 3 < d then raiseFault .badDisposal s
      else packAndRespond (gcfFields d w t) s := by
  refine (unlessFaulted_none hs _).trans ?_
  unfold packAndRespond
  cases fieldsFit (gcfFields d w t) with
  | false => rfl
  | true => simp [maxDisposal]

theorem reads_of_packAndRespond {i : Instr} {s : State} {fields : List (Nat × Nat)} {v : Nat}
    (h : exec i s = packAndRespond fields s) (hs : s.fault = none) (hfit : fieldsFit fields = true)
    (hv : packFields fields = v) (hlt : v < 2 ^ 24) : Reads i s v :=
  reads_of_respond (by rw [h, packAndRespond, if_pos hfit, hv]) hs hlt

theorem endsFaulted_of_packAndRespond {i : Instr} {s : State} {fields : List (Nat × Nat)}
    (h : exec i s = packAndRespond fields s) (hfit : ¬ fieldsFit fields = true) : EndsFaulted i s .fieldOverflow :=
  endsFaulted_of_raise (by rw [h, packAndRespond, if_neg hfit])

/-- Settles O23: the four slots are laid out as `argN4`, and the fit check is that of the layout. -/
theorem packTcfPacksFields : Obligations.PackTcfPacksFields := by
  unfold Obligations.PackTcfPacksFields
  refine ⟨fun f0 f1 f2 f3 => ?_, fun arg => Laws.decode_append_error (Laws.decodeFields_packTcf _),
    fun s h r o z hs => ⟨fun hfit => ?_, fun hfit => ?_⟩⟩
  · exact Laws.decode_ok_of_toNat (by simp only [Instr.wellFormed, Laws.fitsSlot_toNat, Bool.and_self])
      (Laws.toNat_wordN4 0x10#8 f0 f1 f2 f3)
  · exact reads_of_packAndRespond (exec_packTcf hs h r o z) hs ((tcfFields_fit_iff h r o z).mpr hfit)
      (packFields_tcf h r o z) (by omega)
  · exact endsFaulted_of_packAndRespond (exec_packTcf hs h r o z) (mt (tcfFields_fit_iff h r o z).mp hfit)

/-- Settles O24: as for PACK_TCF, on the image layout, whose reserved sub-field is 0. -/
theorem packIcfPacksFields : Obligations.PackIcfPacksFields := by
  unfold Obligations.PackIcfPacksFields
  refine ⟨fun f0 f1 f2 f3 => ?_, fun arg => Laws.decode_append_error (Laws.decodeFields_packIcf _),
    fun s h i o z hs => ⟨fun hfit => ?_, fun hfit => ?_⟩⟩
  · exact Laws.decode_ok_of_toNat (by simp only [Instr.wellFormed, Laws.fitsSlot_toNat, Bool.and_self])
      (Laws.toNat_wordN4 0x11#8 f0 f1 f2 f3)
  · exact reads_of_packAndRespond (exec_packIcf hs h i o z) hs ((icfFields_fit_iff h i o z).mpr hfit)
      (packFields_icf h i o z) (by omega)
  · exact endsFaulted_of_packAndRespond (exec_packIcf hs h i o z) (mt (icfFields_fit_iff h i o z).mp hfit)

/-- Settles O25: the cases of `exec_packGcf`, the disposal looked at only where the fields fit. -/
theorem packGcfPacksFields : Obligations.PackGcfPacksFields := by
  unfold Obligations.PackGcfPacksFields
  refine ⟨fun f1 f2 f3 => ?_, fun arg => Laws.decode_append_error (Laws.decodeFields_packGcf _),
    fun s d w t hs => ⟨fun hfit => ?_, fun hfit hd => ?_, fun ⟨hd, hw, ht⟩ => ?_⟩⟩
  · exact Laws.decode_ok_of_toNat (by simp only [Instr.wellFormed, Laws.fitsSlot_toNat, Bool.and_self])
      (Laws.toNat_wordN3 0x12#8 f1 f2 f3)
  · have hno := mt (gcfFields_fit_iff d w t).mp hfit
    exact endsFaulted_of_packAndRespond ((exec_packGcf hs d w t).trans (if_neg fun h => hno h.1)) hno
  · exact endsFaulted_of_raise
      ((exec_packGcf hs d w t).trans (if_pos ⟨(gcfFields_fit_iff d w t).mpr hfit, hd⟩))
  · exact reads_of_packAndRespond ((exec_packGcf hs d w t).trans (if_neg fun h => absurd h.2 (by omega))) hs
      ((gcfFields_fit_iff d w t).mpr ⟨by omega, hw, ht⟩) (packFields_gcf d w t) (by omega)

end Sys2Proof.Machine

/-! PROOFS of the colour-table family (41_color_table): the words of the CT commands, the declared length, what each
command does to an unfaulted block, and the loading of a table. -/

namespace Sys2Proof.Laws

/-! ### The words of the CT commands (30_encoding R81, R82) -/

/-- Behind the opcode of function `fn` on bank `u` the operands are read by the function's own row. -/
theorem decode_ct_append (u : BankId) {fn : Nat} (hfn : fn < 16) (arg : BitVec 24) :
    decode (BitVec.ofNat 8 (ctOpcode u fn) ++ arg) = decodeCt (ctOpcode u fn) fn u arg.toNat := by
  have hop : (BitVec.ofNat 8 (ctOpcode u fn)).toNat = ctOpcode u fn :=
    Nat.mod_eq_of_lt (EncodedRow.ctOpcode_lt u hfn)
  rw [decode, opField_append, argField_append, hop, decodeFields_ct u hfn]

/-- A row of format Z on either bank. -/
theorem encodedZ_ct {fn : Nat} {f : BankId → Instr} (hfn : fn < 16)
    (hrow : ∀ op u arg, decodeCt op fn u arg = formatZ op arg (f u)) (u : BankId) :
    Machine.EncodedZ (BitVec.ofNat 8 (ctOpcode u fn)) (f u) := by
  refine ⟨?_, fun arg harg => ⟨.unusedOperandBits (ctOpcode u fn) arg.toNat, ?_⟩⟩
  · rw [decode_ct_append u hfn, hrow]
    exact withUsedBits_of_lt (by decide) _ _
  · rw [decode_ct_append u hfn, hrow]
    exact withUsedBits_of_le (Nat.pos_of_ne_zero fun h => harg (BitVec.eq_of_toNat_eq h)) _ _

/-- A row of format C on either bank: the operand field is the colour. -/
theorem decode_ct_color {fn : Nat} {f : BankId → Color → Instr} (hfn : fn < 16)
    (hrow : ∀ op u arg, decodeCt op fn u arg = formatC arg (f u)) (u : BankId) (c : Color) :
    decode (BitVec.ofNat 8 (ctOpcode u fn) ++ c) = .ok (f u c) := by
  rw [decode_ct_append u hfn, hrow, formatC, BitVec.ofNat_toNat, BitVec.setWidth_eq]

/-- The word of format I: an opcode, eight unused bits and an index. -/
theorem toNat_wordI (op : BitVec 8) (i : BitVec 16) : (op ++ 0#8 ++ i).toNat = op.toNat * 2 ^ 24 + i.toNat := by
  simp only [toNat_append_add, BitVec.toNat_ofNat]
  omega

theorem decode_ctColorAt (u : BankId) (i : BitVec 16) :
    decode (BitVec.ofNat 8 (ctOpcode u 3) ++ 0#8 ++ i) = .ok (.ctColorAt u i.toNat) := by
  refine decode_ok_of_toNat (decide_eq_true i.isLt) ?_
  rw [toNat_wordI]
  cases u <;> rfl

theorem decode_ctColorAt_error (u : BankId) {arg : BitVec 24} (h : arg.extractLsb' 16 8 ≠ 0#8) :
    ∃ e, decode (BitVec.ofNat 8 (ctOpcode u 3) ++ arg) = .error e := by
  have hle := two_pow_le_toNat_of_extractLsb'_ne_zero h
  exact ⟨_, (decode_ct_append u (by decide) arg).trans (withUsedBits_of_le hle _ _)⟩

end Sys2Proof.Laws

namespace Sys2Proof.Machine

/-! ### The declared length (41 R131) -/

/-- The declared length is the power of two whose predecessor does not hold the colours. -/
theorem declaredLength_false_of_le_of_lt {n e : Nat} (hle : n ≤ 2 ^ (e + 1)) (hlt : e = 0 ∨ 2 ^ e < n) :
    declaredLength n false = 2 ^ (e + 1) := by
  have hup : ceilLog2 n ≤ e + 1 := (ceilLog2_le_iff n _).mpr hle
  have hlow : e = 0 ∨ ¬ ceilLog2 n ≤ e := hlt.imp_right fun h => by rw [ceilLog2_le_iff]; omega
  rw [declaredLength_eq, Bool.toNat_false, Nat.add_zero]
  congr 1
  omega

/-- The reserved slot counts as one more colour. -/
theorem declaredLength_true (n : Nat) : declaredLength n true = declaredLength (n + 1) false := by
  simp only [declaredLength_eq, Bool.toNat_true, Bool.toNat_false, Nat.add_zero]

theorem declaredLength_false_table {n : Nat} (hn : n ≤ 256) :
    declaredLength n false =
      if n ≤ 2 then 2 else if n ≤ 4 then 4 else if n ≤ 8 then 8 else if n ≤ 16 then 16 else if n ≤ 32 then 32
      else if n ≤ 64 then 64 else if n ≤ 128 then 128 else 256 := by
  split_ifs
  · exact declaredLength_false_of_le_of_lt (e := 0) (by omega) (by omega)
  · exact declaredLength_false_of_le_of_lt (e := 1) (by omega) (by omega)
  · exact declaredLength_false_of_le_of_lt (e := 2) (by omega) (by omega)
  · exact declaredLength_false_of_le_of_lt (e := 3) (by omega) (by omega)
  · exact declaredLength_false_of_le_of_lt (e := 4) (by omega) (by omega)
  · exact declaredLength_false_of_le_of_lt (e := 5) (by omega) (by omega)
  · exact declaredLength_false_of_le_of_lt (e := 6) (by omega) (by omega)
  · exact declaredLength_false_of_le_of_lt (e := 7) (by omega) (by omega)

/-- Settles O28: with the flag set the table is that of one more colour without it. -/
theorem declaredLengthTable : Obligations.DeclaredLengthTable := by
  unfold Obligations.DeclaredLengthTable
  refine ⟨fun n => declaredLength_false_table, fun n hn => ?_⟩
  rw [declaredLength_true, declaredLength_false_table (by omega)]
  simp only [Nat.reduceLeDiff]

/-- The reserved slot's index is no explicit colour's (10_state R29), and fits a byte. -/
theorem declaredLength_true_sub_one {n : Nat} (hn : n ≤ 255) :
    n ≤ declaredLength n true - 1 ∧ declaredLength n true - 1 ≤ 255 := by
  have he : ceilLog2 (n + 1) ≤ 8 := (ceilLog2_le_iff _ _).mpr (by omega)
  have hlo : n + 1 ≤ 2 ^ max 1 (ceilLog2 (n + 1)) := (ceilLog2_le_iff _ _).mp (Nat.le_max_right ..)
  have hhi : 2 ^ max 1 (ceilLog2 (n + 1)) ≤ 2 ^ 8 := Nat.pow_le_pow_right (by omega) (by omega)
  rw [declaredLength_eq, Bool.toNat_true]
  omega

theorem Bank.n_le_declaredLength (b : Bank) : b.n ≤ b.declaredLength :=
  (Nat.le_add_right ..).trans b.n_add_rsv_le_declaredLength

/-! ### Writing one bank -/

/-- A command that writes bank `u` and answers does nothing else to the block. -/
theorem succeeds_of_respond_setBank {i : Instr} {s : State} {u : BankId} {b : Bank} {v : Nat}
    (h : exec i s = respond v (s.setBank u b)) (hs : s.fault = none) (hv : v < 2 ^ 24) :
    ∃ t, Succeeds i s t v ∧ OnlyBankChanges u s t ∧ t.bank u = b := by
  refine ⟨_, succeeds_of_respond h (by simpa using hs) (by simp) hv, ⟨by simp, by simp [SameStream], ?_⟩, by simp⟩
  intro w hw
  rw [answer_bank, setBank_bank_other _ _ hw]

/-! ### CT_NEW and CT_INSERT (41 R130, R132) -/

theorem exec_ctNew {s : State} (hs : s.fault = none) (u : BankId) :
    exec (.ctNew u) s = respond 0 (s.setBank u .empty) := unlessFaulted_none hs _

/-- Settles O29: the bank written is `Bank.empty`. -/
theorem ctNewEmptiesBank : Obligations.CtNewEmptiesBank := by
  unfold Obligations.CtNewEmptiesBank
  have hz := Laws.encodedZ_ct (fn := 0) (f := .ctNew) (by decide) fun _ _ _ => rfl
  refine ⟨hz .bank0, hz .bank1, fun s u hs => ?_⟩
  obtain ⟨t, ht, honly, hb⟩ := succeeds_of_respond_setBank (exec_ctNew hs u) hs (by decide)
  exact ⟨t, ht, honly, by rw [hb]; decide⟩

theorem exec_ctInsert {s : State} (hs : s.fault = none) (u : BankId) (c : Color) :
    exec (.ctInsert u c) s =
      if (s.bank u).sealed then raiseFault .tableSealed s
      else if c ∈ (s.bank u).colors then raiseFault .duplicateColor s
      else if (s.bank u).n < (s.bank u).capacity then respond (s.bank u).n (s.setBank u ((s.bank u).insert c))
      else raiseFault .tableFull s := unlessFaulted_none hs _

theorem exec_ctInsert_of_room {s : State} (hs : s.fault = none) {u : BankId} {c : Color}
    (hopen : (s.bank u).sealed = false) (hc : c ∉ (s.bank u).colors) (hn : (s.bank u).n < (s.bank u).capacity) :
    exec (.ctInsert u c) s = respond (s.bank u).n (s.setBank u ((s.bank u).insert c)) := by
  rw [exec_ctInsert hs, if_neg (by simp [hopen]), if_neg hc, if_pos hn]

/-- A bank with room has at most 255 colours (41 R134). -/
theorem Bank.n_lt_of_lt_capacity {b : Bank} (h : b.n < b.capacity) : b.n < 256 := by
  rw [capacity_eq] at h
  omega

/-- Settles O30: the checks are those of `exec_ctInsert`, in its order. -/
theorem ctInsertAssignsNextIndex : Obligations.CtInsertAssignsNextIndex := by
  unfold Obligations.CtInsertAssignsNextIndex
  have hw := Laws.decode_ct_color (fn := 1) (f := .ctInsert) (by decide) fun _ _ _ => rfl
  refine ⟨fun c => ⟨hw .bank0 c, hw .bank1 c⟩, fun s u c hs => ?_⟩
  rw [← capacity_eq]
  refine ⟨fun hsealed => ?_, fun hopen hc => ?_, fun hopen hc hn => ?_, fun hopen hc hn => ?_⟩
  · exact endsFaulted_of_raise (by rw [exec_ctInsert hs, if_pos hsealed])
  · exact endsFaulted_of_raise (by rw [exec_ctInsert hs, if_neg (by simp [hopen]), if_pos hc])
  · exact endsFaulted_of_raise
      (by rw [exec_ctInsert hs, if_neg (by simp [hopen]), if_neg hc, if_neg (Nat.not_lt.mpr hn)])
  · have hlt := Bank.n_lt_of_lt_capacity hn
    obtain ⟨t, ht, honly, hb⟩ := succeeds_of_respond_setBank (exec_ctInsert_of_room hs hopen hc hn) hs (by omega)
    exact ⟨t, ht, honly, by simp [hb, hopen]⟩

/-! ### CT_LOOKUP and CT_COLOR_AT (41 R135, R136) -/

theorem exec_ctLookup_of_some {s : State} (hs : s.fault = none) {u : BankId} {c : Color} {i : Nat}
    (h : (s.bank u).indexOf c = some i) : exec (.ctLookup u c) s = respond i s := by
  rw [exec, execCtLookup, unlessFaulted_none hs, h]

theorem exec_ctLookup_of_none {s : State} (hs : s.fault = none) {u : BankId} {c : Color}
    (h : (s.bank u).indexOf c = none) : exec (.ctLookup u c) s = raiseFault .notFound s := by
  rw [exec, execCtLookup, unlessFaulted_none hs, h]

/-- Settles O31: in a good bank the colours are distinct, so `indexOf` finds the index asked about. -/
theorem ctLookupFindsIndex : Obligations.CtLookupFindsIndex := by
  unfold Obligations.CtLookupFindsIndex
  have hw := Laws.decode_ct_color (fn := 2) (f := .ctLookup) (by decide) fun _ _ _ => rfl
  refine ⟨fun c => ⟨hw .bank0 c, hw .bank1 c⟩, fun s u c hs hb => ⟨fun i hi => ?_, fun hc => ?_⟩⟩
  · have hlt : i < (s.bank u).n := (List.getElem?_eq_some_iff.mp hi).1
    have hn := hb.n_add_rsv_le
    exact reads_of_respond (exec_ctLookup_of_some hs (indexOf_of_getElem? hb.1 hi)) hs (by omega)
  · exact endsFaulted_of_raise (exec_ctLookup_of_none hs (indexOf_of_not_mem hc))

theorem exec_ctColorAt {s : State} (hs : s.fault = none) (u : BankId) (i : Nat) :
    exec (.ctColorAt u i) s =
      if i < (s.bank u).declaredLength then respond ((s.bank u).colorAt i).toNat s
      else raiseFault .indexOutOfRange s := unlessFaulted_none hs _

theorem reads_ctColorAt_of_getElem? {s : State} (hs : s.fault = none) {u : BankId} {i : Nat} {c : Color}
    (h : (s.bank u).colors[i]? = some c) : Reads (.ctColorAt u i) s c.toNat := by
  have hi : i < (s.bank u).n := (List.getElem?_eq_some_iff.mp h).1
  refine reads_of_respond ?_ hs c.isLt
  rw [exec_ctColorAt hs, if_pos (hi.trans_le (s.bank u).n_le_declaredLength), colorAt_of_getElem? h]

theorem reads_ctColorAt_of_le {s : State} (hs : s.fault = none) {u : BankId} {i : Nat} (hn : (s.bank u).n ≤ i)
    (hdl : i < (s.bank u).declaredLength) : Reads (.ctColorAt u i) s 0 := by
  refine reads_of_respond ?_ hs (by decide)
  rw [exec_ctColorAt hs, if_pos hdl, colorAt_of_le hn]
  rfl

/-- Settles O32: below `n` the stored colour, from there to `dl` black. -/
theorem ctColorAtReadsColour : Obligations.CtColorAtReadsColour := by
  unfold Obligations.CtColorAtReadsColour
  refine ⟨fun i => ⟨Laws.decode_ctColorAt .bank0 i, Laws.decode_ctColorAt .bank1 i⟩,
    fun arg h => ⟨Laws.decode_ctColorAt_error .bank0 h, Laws.decode_ctColorAt_error .bank1 h⟩,
    fun s u i hs => ⟨fun c => reads_ctColorAt_of_getElem? hs, reads_ctColorAt_of_le hs, fun hdl => ?_⟩⟩
  exact endsFaulted_of_raise (by rw [exec_ctColorAt hs, if_neg (Nat.not_lt.mpr hdl)])

/-! ### CT_RESERVE and CT_TRANSP (41 R137, R138) -/

theorem reserveFault_of_sealed {b : Bank} (hr : b.rsv = false) (hsealed : b.sealed = true) :
    b.reserveFault = some .tableSealed := by simp [Bank.reserveFault, hr, hsealed]

theorem reserveFault_of_full {b : Bank} (hr : b.rsv = false) (hopen : b.sealed = false) (hn : 256 ≤ b.n) :
    b.reserveFault = some .tableFull := by simp [Bank.reserveFault, hr, hopen, Nat.not_le.mpr hn]

section Reserve
variable {s : State} (hs : s.fault = none) {u : BankId}
include hs

theorem exec_ctReserve_of_some {c : FaultCode} (h : (s.bank u).reserveFault = some c) :
    exec (.ctReserve u) s = raiseFault c s := by
  rw [exec, execCtReserve, unlessFaulted_none hs, h]

theorem exec_ctReserve_of_none (h : (s.bank u).reserveFault = none) :
    exec (.ctReserve u) s = respond 0 (s.setBank u (s.bank u).reserve) := by
  rw [exec, execCtReserve, unlessFaulted_none hs, h]

theorem exec_ctTransp_of_some {c : FaultCode} (h : (s.bank u).reserveFault = some c) :
    exec (.ctTransp u) s = raiseFault c s := by
  rw [exec, execCtTransp, unlessFaulted_none hs, h]

/-- The value answered is that of the bank with the flag set. -/
theorem exec_ctTransp_of_none (h : (s.bank u).reserveFault = none) :
    exec (.ctTransp u) s =
      respond (declaredLength (s.bank u).n true - 1) (s.setBank u (s.bank u).reserve) := by
  rw [exec, execCtTransp, unlessFaulted_none hs, h]
  rfl

end Reserve

/-- Settles O33, from the three answers of `reserveFault`; where the flag is set, setting it changes nothing. -/
theorem ctReserveSetsFlag : Obligations.CtReserveSetsFlag := by
  unfold Obligations.CtReserveSetsFlag
  have hz := Laws.encodedZ_ct (fn := 4) (f := .ctReserve) (by decide) fun _ _ _ => rfl
  refine ⟨hz .bank0, hz .bank1, fun s u hs => ⟨fun hr => ?_, fun hr hsealed => ?_, fun hr hopen hn => ?_,
    fun hr hopen hn => ?_⟩⟩
  · have hex := exec_ctReserve_of_none hs ((reserveFault_eq_none_iff _).mpr (.inl hr))
    rw [setBank_reserve_of_rsv hr] at hex
    exact reads_of_respond hex hs (by decide)
  · exact endsFaulted_of_raise (exec_ctReserve_of_some hs (reserveFault_of_sealed hr hsealed))
  · exact endsFaulted_of_raise (exec_ctReserve_of_some hs (reserveFault_of_full hr hopen hn))
  · have hex := exec_ctReserve_of_none hs ((reserveFault_eq_none_iff _).mpr (.inr ⟨hopen, hn⟩))
    obtain ⟨t, ht, honly, hb⟩ := succeeds_of_respond_setBank hex hs (by decide)
    exact ⟨t, ht, honly, by simp [hb, hopen]⟩

/-- Settles O34: as for CT_RESERVE, with the transparent index of the reserved bank as the answer. -/
theorem ctTranspReservesAndReads : Obligations.CtTranspReservesAndReads := by
  unfold Obligations.CtTranspReservesAndReads
  have hz := Laws.encodedZ_ct (fn := 5) (f := .ctTransp) (by decide) fun _ _ _ => rfl
  refine ⟨hz .bank0, hz .bank1, fun s u hs => ⟨fun hr hn => ?_, fun hr hsealed => ?_, fun hr hopen hn => ?_,
    fun hr hopen hn => ?_⟩⟩
  · have hex := exec_ctTransp_of_none hs ((reserveFault_eq_none_iff _).mpr (.inl hr))
    rw [setBank_reserve_of_rsv hr] at hex
    have hv := (declaredLength_true_sub_one hn).2
    exact reads_of_respond hex hs (by omega)
  · exact endsFaulted_of_raise (exec_ctTransp_of_some hs (reserveFault_of_sealed hr hsealed))
  · exact endsFaulted_of_raise (exec_ctTransp_of_some hs (reserveFault_of_full hr hopen hn))
  · have hex := exec_ctTransp_of_none hs ((reserveFault_eq_none_iff _).mpr (.inr ⟨hopen, hn⟩))
    obtain ⟨hfree, hv⟩ := declaredLength_true_sub_one hn
    obtain ⟨t, ht, honly, hb⟩ := succeeds_of_respond_setBank hex hs (by omega)
    exact ⟨t, ht, honly, by simp [hb, hopen, hfree]⟩

/-! ### The pure reads (41 R139 to R142) -/

/-- Settles O35: each read answers a size of the bank, and the sizes of a good bank are in range. -/
theorem ctSizeReads : Obligations.CtSizeReads := by
  unfold Obligations.CtSizeReads
  have hsize := Laws.encodedZ_ct (fn := 6) (f := .ctSize) (by decide) fun _ _ _ => rfl
  have hdeclen := Laws.encodedZ_ct (fn := 7) (f := .ctDeclen) (by decide) fun _ _ _ => rfl
  have hbytelen := Laws.encodedZ_ct (fn := 8) (f := .ctBytelen) (by decide) fun _ _ _ => rfl
  have hulen := Laws.encodedZ_ct (fn := 9) (f := .ctUlen) (by decide) fun _ _ _ => rfl
  refine ⟨hsize .bank0, hsize .bank1, hdeclen .bank0, hdeclen .bank1, hbytelen .bank0, hbytelen .bank1, hulen .bank0,
    hulen .bank1, fun s u hs hb => ?_⟩
  obtain ⟨hsf, hdl, hn, hbytes, -, hle, -⟩ := derivedSizesAreInRange _ hb
  exact ⟨⟨(s.bank u).sizeField, hsf, hdl, reads_of_respond (unlessFaulted_none hs _) hs (by omega)⟩,
    reads_of_respond (unlessFaulted_none hs _) hs (by omega : (s.bank u).declaredLength < 2 ^ 24),
    reads_of_respond (unlessFaulted_none hs _) hs (by omega : (s.bank u).byteLength < 2 ^ 24),
    reads_of_respond (unlessFaulted_none hs _) hs (by omega)⟩

/-! ### CT_SERIALIZE (41 R143) -/

/-- The colours of the declared length: the explicit ones in order, then black. -/
theorem Bank.map_colorAt_range (b : Bank) :
    (List.range b.declaredLength).map b.colorAt = b.colors ++ List.replicate (b.declaredLength - b.n) black := by
  have hn := b.n_le_declaredLength
  refine List.ext_getElem ?_ fun i hi _ => ?_
  · rw [List.length_map, List.length_range, List.length_append, List.length_replicate]
    exact (Nat.add_sub_of_le hn).symm
  · rw [List.getElem_map, List.getElem_range]
    rcases Nat.lt_or_ge i b.colors.length with hlt | hge
    · rw [List.getElem_append_left hlt, colorAt_of_getElem? (List.getElem?_eq_getElem hlt)]
    · rw [List.getElem_append_right hge, List.getElem_replicate, colorAt_of_le hge]

theorem Bank.serialBytes_eq (b : Bank) :
    b.serialBytes = (b.colors ++ List.replicate (b.declaredLength - b.n) black).flatMap colorBytes := by
  rw [← b.map_colorAt_range, List.flatMap_map]
  rfl

theorem exec_ctSerialize {s : State} (hs : s.fault = none) (u : BankId) :
    exec (.ctSerialize u) s =
      if s.lzw.phase = .idle then
        respond (s.bank u).byteLength ((s.emitBytes (s.bank u).serialBytes).setBank u (s.bank u).seal)
      else raiseFault .badPhase s := unlessFaulted_none hs _

/-- Settles O36: the bytes are those of `Bank.serialBytes_eq`. -/
theorem ctSerializeEmitsTable : Obligations.CtSerializeEmitsTable := by
  unfold Obligations.CtSerializeEmitsTable
  have hz := Laws.encodedZ_ct (fn := 10) (f := .ctSerialize) (by decide) fun _ _ _ => rfl
  refine ⟨hz .bank0, hz .bank1, fun s u hs => ⟨fun hp => ?_, fun hp hb => ?_⟩⟩
  · exact endsFaulted_of_raise (by rw [exec_ctSerialize hs, if_neg hp])
  · obtain ⟨-, -, -, hbytes, -, hle, -⟩ := derivedSizesAreInRange _ hb
    refine ⟨_, succeeds_of_respond ((exec_ctSerialize hs u).trans (if_pos hp)) (by simpa using hs) (by simp)
      (by omega), ?_, by simp, by simp, by simp, fun v hv => ?_, by simp [SameStream]⟩
    · rw [answer_out, setBank_out, emitBytes_out, Bank.serialBytes_eq]
      rfl
    · rw [answer_bank, setBank_bank_other _ _ hv]
      exact bank_of_ct rfl rfl v

/-! ### Sequences of commands (20_memory R72) -/

theorem execAll_cons_of_next {i : Instr} {is : List Instr} {s t : State} (h : exec i s = .next t) :
    execAll (i :: is) s = execAll is t := by rw [execAll, h]

theorem execAll_append_of_next {is js : List Instr} {s t : State} (h : execAll is s = .next t) :
    execAll (is ++ js) s = execAll js t := by
  induction is generalizing s with
  | nil => cases h; rfl
  | cons i is ih =>
    cases hi : exec i s with
    | next r =>
      rw [execAll_cons_of_next hi] at h
      rw [List.cons_append, execAll_cons_of_next hi, ih h]
    | fault f => simp [execAll, hi] at h
    | refused r => simp [execAll, hi] at h

/-! ### Loading a table (41 R145) -/

/-- `t` is `s` with the colours `cs`, and nothing else, put into bank `u`. -/
structure Loaded (u : BankId) (s : State) (cs : List Color) (t : State) : Prop where
  unfaulted : t.fault = none
  bank_eq : t.bank u = { colors := cs, rsv := false, sealed := false }
  onlyBank : OnlyBankChanges u s t

theorem OnlyBankChanges.trans {u : BankId} {s t r : State} (h : OnlyBankChanges u s t) (h' : OnlyBankChanges u t r) :
    OnlyBankChanges u s r := by
  obtain ⟨hout, hstream, hbanks⟩ := h
  obtain ⟨hout', hstream', hbanks'⟩ := h'
  exact ⟨hout'.trans hout, hstream.trans hstream', fun v hv => (hbanks' v hv).trans (hbanks v hv)⟩

theorem loaded_ctNew {s : State} (hs : s.fault = none) (u : BankId) :
    ∃ t, exec (.ctNew u) s = .next t ∧ Loaded u s [] t := by
  obtain ⟨t, ⟨hex, hf, -⟩, honly, hb⟩ := succeeds_of_respond_setBank (exec_ctNew hs u) hs (by decide)
  exact ⟨t, hex, hf, hb, honly⟩

section Loaded
variable {u : BankId} {s t : State} {cs : List Color} (h : Loaded u s cs t)
include h

theorem Loaded.ctInsert {c : Color} (hc : c ∉ cs) (hn : cs.length < 256) :
    ∃ t', exec (.ctInsert u c) t = .next t' ∧ Loaded u s (cs ++ [c]) t' := by
  obtain ⟨hf, hb, honly⟩ := h
  have hex := exec_ctInsert_of_room (c := c) hf (by rw [hb]) (by rwa [hb]) (by rwa [hb])
  have hlt : (t.bank u).n < 2 ^ 24 := by rw [hb]; exact hn.trans (by decide)
  obtain ⟨t', ⟨hex', hf', -⟩, honly', hb'⟩ := succeeds_of_respond_setBank hex hf hlt
  exact ⟨t', hex', hf', by rw [hb', hb]; rfl, honly.trans honly'⟩

theorem Loaded.ctInserts (ds : List Color) (hnodup : (cs ++ ds).Nodup) (hn : (cs ++ ds).length ≤ 256) :
    ∃ t', execAll (ds.map (.ctInsert u)) t = .next t' ∧ Loaded u s (cs ++ ds) t' := by
  induction ds generalizing cs t with
  | nil => exact ⟨t, rfl, by rwa [List.append_nil]⟩
  | cons d ds ih =>
    have hd : d ∉ cs := fun hmem => (List.disjoint_of_nodup_append hnodup) hmem List.mem_cons_self
    obtain ⟨r, hr, hload⟩ := h.ctInsert hd (by rw [List.length_append, List.length_cons] at hn; omega)
    rw [List.append_cons] at hnodup hn ⊢
    rw [List.map_cons, execAll_cons_of_next hr]
    exact ih hload hnodup hn

/-- An open table without the reserved slot has the declared length of its colours alone. -/
theorem Loaded.declaredLength_eq : (t.bank u).declaredLength = declaredLength cs.length false := by
  rw [h.bank_eq]
  rfl

theorem Loaded.ctSerialize (hp : s.lzw.phase = .idle) :
    ∃ t', exec (.ctSerialize u) t = .next t' ∧ t'.fault = none ∧
      t'.out = s.out ++
        (cs ++ List.replicate (declaredLength cs.length false - cs.length) black).flatMap colorBytes := by
  obtain ⟨hout, ⟨hlzw, -⟩, -⟩ := h.onlyBank
  have hidle : t.lzw.phase = .idle := by rw [hlzw, hp]
  refine ⟨_, (exec_ctSerialize h.unfaulted u).trans (if_pos hidle), by simpa using h.unfaulted, ?_⟩
  rw [answer_out, setBank_out, emitBytes_out, Bank.serialBytes_eq, h.declaredLength_eq, hout, h.bank_eq]
  rfl

end Loaded

theorem execAll_ctLoad {s : State} (hs : s.fault = none) (u : BankId) {cs : List Color} (hnodup : cs.Nodup)
    (hn : cs.length ≤ 256) : ∃ t, execAll (ctLoad u cs) s = .next t ∧ Loaded u s cs t := by
  obtain ⟨r, hr, hload⟩ := loaded_ctNew hs u
  rw [ctLoad, execAll_cons_of_next hr]
  exact hload.ctInserts cs hnodup hn

/-- Black is three zero bytes. -/
theorem flatMap_colorBytes_replicate_black (k : Nat) :
    (List.replicate k black).flatMap colorBytes = List.replicate (3 * k) 0#8 := by
  have hblack : colorBytes black = List.replicate 3 0#8 := by decide
  rw [List.flatMap_replicate, hblack, List.flatten_replicate_replicate, Nat.mul_comm]

/-- Settles O37, from `execAll_ctLoad`: after the load the bank holds exactly the colours, in order. -/
theorem loadedColoursRoundTrip : Obligations.LoadedColoursRoundTrip := by
  unfold Obligations.LoadedColoursRoundTrip
  intro s u cs hs hp hnodup hn
  obtain ⟨t, ht, hload⟩ := execAll_ctLoad hs u hnodup hn
  refine ⟨?_, t, ht, hload.unfaulted, fun i c hc => ?_, fun i hi hdl => ?_⟩
  · obtain ⟨r, hr, hf, hout⟩ := hload.ctSerialize hp
    refine ⟨r, by rw [execAll_append_of_next ht, execAll_cons_of_next hr, execAll], hf, ?_⟩
    rw [hout, List.flatMap_append, flatMap_colorBytes_replicate_black, ← List.append_assoc]
    rfl
  · exact reads_ctColorAt_of_getElem? hload.unfaulted (by rw [hload.bank_eq]; exact hc)
  · exact reads_ctColorAt_of_le hload.unfaulted (by rw [hload.bank_eq]; exact hi) (by rwa [hload.declaredLength_eq])

end Sys2Proof.Machine

/-! PROOFS of the compressor family (42_lzw): the words of the LZW commands, the pushes of a list of codes, what each
LZW command does to an unfaulted block, the phase machine, and a whole stream against `compress`. -/

namespace Sys2Proof.Laws

/-! ### The words of the LZW commands (30_encoding R81, R82) -/

/-- A row of format Z that its opcode alone names. -/
theorem encodedZ_of_row {op : BitVec 8} {i : Instr}
    (hrow : ∀ arg, decodeFields op.toNat arg = formatZ op.toNat arg i) : Machine.EncodedZ op i := by
  refine ⟨?_, fun arg harg => ?_⟩
  · rw [decode, opField_append, argField_append, hrow]
    exact withUsedBits_of_lt (by decide) _ _
  · refine decode_append_error (len := 24) (hrow _) ?_
    rwa [BitVec.extractLsb'_eq_self]

end Sys2Proof.Laws

namespace Sys2Proof.Machine

/-! ### Pushing a list of codes (43 R211, R212, R215)

Two pushes are one push of the codes laid end to end, so a list of codes is one push of its value at its total width. -/

theorem lowBytes_add (j k v : Nat) : lowBytes (j + k) v = lowBytes j v ++ lowBytes k (v / 256 ^ j) := by
  induction j generalizing v with
  | zero => simp [lowBytes]
  | succ j ih =>
    rw [Nat.add_right_comm, lowBytes_succ, lowBytes_succ, ih, Nat.div_div_eq_div_mul, ← Nat.pow_succ',
      List.cons_append]

/-- What stands above the first `k` bytes does not change them. -/
theorem lowBytes_add_mul (k v x : Nat) : lowBytes k (v + 256 ^ k * x) = lowBytes k v := by
  induction k generalizing v with
  | zero => rfl
  | succ k ih =>
    have hbyte : BitVec.ofNat 8 (v + 256 * (256 ^ k * x)) = BitVec.ofNat 8 v := by
      apply BitVec.eq_of_toNat_eq
      rw [BitVec.toNat_ofNat, BitVec.toNat_ofNat]
      exact Nat.add_mul_mod_self_left v 256 _
    rw [lowBytes_succ, lowBytes_succ, Nat.pow_succ', Nat.mul_assoc, hbyte, Nat.add_mul_div_left _ _ (by decide), ih]

/-- A number of whole bytes and the bits left over. -/
theorem two_pow_eq_bytes (n : Nat) : 2 ^ n = 256 ^ (n / 8) * 2 ^ (n % 8) := by
  rw [show 256 = 2 ^ 8 from rfl, ← Nat.pow_mul, ← Nat.pow_add, Nat.div_add_mod]

theorem bpPush_bpPush (s : State) (v w v' w' : Nat) :
    (s.bpPush v w).bpPush v' w' = s.bpPush (v + 2 ^ w * v') (w + w') := by
  have hcount : (s.bp.nbits + (w + w')) / 8 = (s.bp.nbits + w) / 8 + ((s.bp.nbits + w) % 8 + w') / 8 := by omega
  have hrest : (s.bp.nbits + (w + w')) % 8 = ((s.bp.nbits + w) % 8 + w') % 8 := by omega
  have hvalue : s.bp.acc + (v + 2 ^ w * v') * 2 ^ s.bp.nbits =
      s.bp.acc + v * 2 ^ s.bp.nbits +
        256 ^ ((s.bp.nbits + w) / 8) * (v' * 2 ^ ((s.bp.nbits + w) % 8)) := by
    rw [Nat.mul_left_comm, ← two_pow_eq_bytes, Nat.pow_add]
    ring
  have hdiv (a x k : Nat) : (a + 256 ^ k * x) / 256 ^ k = a / 256 ^ k + x :=
    Nat.add_mul_div_left _ _ (Nat.pow_pos (by decide))
  rw [bpPush_eq (s.bpPush v w), bpPush_eq s (v + 2 ^ w * v'), hcount, hrest, hvalue, lowBytes_add, lowBytes_add_mul,
    Nat.pow_add, ← Nat.div_div_eq_div_mul, hdiv, bpPush_eq s v w, List.append_assoc]

/-- Pushing nothing changes nothing: fewer than 8 bits are pending. -/
theorem bpPush_zero {s : State} (h : s.bp.nbits < 8) : s.bpPush 0 0 = s := by
  simp [bpPush_eq, lowBytes, Nat.div_eq_of_lt h, Nat.mod_eq_of_lt h]

theorem pushAll_cons (s : State) (c : Nat × Nat) (cs : List (Nat × Nat)) :
    s.pushAll (c :: cs) = (s.bpPush c.1 c.2).pushAll cs := rfl

theorem pushAll_append (s : State) (cs ds : List (Nat × Nat)) : s.pushAll (cs ++ ds) = (s.pushAll cs).pushAll ds :=
  List.foldl_append

/-- A list of codes is pushed as one code. -/
theorem pushAll_eq_bpPush {s : State} (h : s.bp.nbits < 8) (codes : List (Nat × Nat)) :
    s.pushAll codes = s.bpPush (codesValue codes) (codesWidth codes) := by
  induction codes generalizing s with
  | nil => exact (bpPush_zero h).symm
  | cons c cs ih =>
    have hlt : (s.bpPush c.1 c.2).bp.nbits < 8 := by
      rw [bpPush_nbits]
      omega
    rw [pushAll_cons, ih hlt, bpPush_bpPush]
    rfl

/-- After a push at most 7 bits are pending, and the flush zero-pads them to a byte. -/
theorem bpPush_bpFlush_out (s : State) (v w : Nat) :
    (s.bpPush v w).bpFlush.out =
      s.out ++ lowBytes ((s.bp.nbits + w + 7) / 8) (s.bp.acc + v * 2 ^ s.bp.nbits) := by
  rw [bpFlush_out, bpPush_out, bpPush_nbits, bpPush_acc, List.append_assoc]
  split
  · next h =>
    rw [show (s.bp.nbits + w + 7) / 8 = (s.bp.nbits + w) / 8 + 1 by omega, lowBytes_add, lowBytes_succ 0]
    rfl
  · next h =>
    rw [show (s.bp.nbits + w + 7) / 8 = (s.bp.nbits + w) / 8 by omega, List.append_nil]

/-- 43 R215: the bytes of a list of codes pushed into an empty packer and flushed. -/
theorem pushAll_bpFlush_out {s : State} (hn : s.bp.nbits = 0) (ha : s.bp.acc = 0) (codes : List (Nat × Nat)) :
    (s.pushAll codes).bpFlush.out = s.out ++ packLsb codes := by
  rw [pushAll_eq_bpPush (by omega), bpPush_bpFlush_out, hn, ha, Nat.zero_add, Nat.zero_add, Nat.pow_zero, Nat.mul_one]
  rfl

/-- The pushes read the output and the packer alone. -/
theorem pushAll_congr {s t : State} (hout : t.out = s.out) (hbp : t.bp = s.bp) (codes : List (Nat × Nat)) :
    (t.pushAll codes).out = (s.pushAll codes).out ∧ (t.pushAll codes).bp = (s.pushAll codes).bp := by
  induction codes generalizing s t with
  | nil => exact ⟨hout, hbp⟩
  | cons c cs ih => exact ih (by rw [bpPush_out, bpPush_out, hout, hbp]) (bpPush_congr hbp c.1 c.2)

/-- From `s` to `t` the codes went through the packer: the output and the pending bits are those of their pushes. -/
def Emitted (s : State) (codes : List (Nat × Nat)) (t : State) : Prop :=
  t.out = (s.pushAll codes).out ∧ t.bp = (s.pushAll codes).bp

theorem Emitted.bpFlush_out {s t : State} {cs : List (Nat × Nat)} (h : Emitted s cs t) :
    t.bpFlush.out = (s.pushAll cs).bpFlush.out := by
  rw [Machine.bpFlush_out, Machine.bpFlush_out, h.1, h.2]

/-- Codes that went through the packer, and the pushes that follow them. -/
theorem Emitted.pushAll {s t : State} {cs : List (Nat × Nat)} (h : Emitted s cs t) (ds : List (Nat × Nat)) :
    Emitted s (cs ++ ds) (t.pushAll ds) := by
  rw [Emitted, pushAll_append]
  exact pushAll_congr h.1 h.2 ds

/-! ### LZW_START (42_lzw R173) -/

theorem exec_lzwStart_of_not_idle {s : State} (hs : s.fault = none) (hp : s.lzw.phase ≠ .idle) (u : BankId) :
    exec (.lzwStart u) s = raiseFault .badPhase s := by
  rw [exec, execLzwStart, unlessFaulted_none hs, if_neg hp]

theorem startStream_lzw (u : BankId) (s : State) : (startStream u s).lzw = (s.openStream u).lzw := bpPush_lzw ..

/-- The clear code goes out from an empty packer. -/
theorem startStream_out (u : BankId) (s : State) :
    (startStream u s).out = s.out ++
      lowBytes ((minCodeSize (s.bank u).sizeField + 1) / 8) (2 ^ minCodeSize (s.bank u).sizeField) := by
  simp [startStream, bpPush_out, Lzw.clearCode]

theorem startStream_bp (u : BankId) (s : State) :
    (startStream u s).bp =
      { nbits := (minCodeSize (s.bank u).sizeField + 1) % 8,
        acc := 2 ^ minCodeSize (s.bank u).sizeField / 256 ^ ((minCodeSize (s.bank u).sizeField + 1) / 8) } := by
  simp [startStream, bpPush_eq, Lzw.clearCode]

theorem succeeds_lzwStart {s : State} (hs : s.fault = none) (hp : s.lzw.phase = .idle) {u : BankId}
    (hb : (s.bank u).Inv) :
    Succeeds (.lzwStart u) s ((startStream u s).answer (minCodeSize (s.bank u).sizeField))
      (minCodeSize (s.bank u).sizeField) := by
  have hm := minCodeSize_le hb.sizeField_le
  exact succeeds_of_respond (exec_lzwStart_of_idle hs hp u) (by simpa [startStream] using hs) (by simp [startStream])
    (by omega)

/-- Settles O41: the clear code is `m + 1` bits, so it fills a byte exactly for `m = 7` and leaves one bit for
`m = 8`. -/
theorem lzwStartOpensStream : Obligations.LzwStartOpensStream := by
  unfold Obligations.LzwStartOpensStream
  refine ⟨rfl, rfl, fun arg => Laws.decode_append_error (Laws.decodeFields_lzwStart _), fun s u hs =>
    ⟨fun hp => endsFaulted_of_raise (exec_lzwStart_of_not_idle hs hp u), fun hp hb => ?_⟩⟩
  have hm := minCodeSize_le hb.sizeField_le
  refine ⟨_, minCodeSize (s.bank u).sizeField, rfl, succeeds_lzwStart hs hp hb, by simp [SameTables, startStream],
    startStream_lzw u s, ?_⟩
  rw [answer_out, answer_bp, startStream_out, startStream_bp]
  generalize minCodeSize (s.bank u).sizeField = m at hm ⊢
  refine ⟨fun h => ?_, ?_, ?_, hm⟩
  · rw [Nat.div_eq_of_lt (by omega : m + 1 < 8), Nat.mod_eq_of_lt (by omega : m + 1 < 8)]
    simp [lowBytes]
  · rintro rfl
    exact ⟨rfl, rfl⟩
  · rintro rfl
    exact ⟨rfl, rfl⟩

/-! ### Taking one index (42_lzw R174, R175) -/

section TakeIndex
variable {s : State} {k : Nat}

theorem takeIndex_of_first (hp : s.lzw.phase = .first) :
    s.takeIndex k = some { s with lzw := { s.lzw with buf := [k], phase := .run } } := if_pos hp

theorem takeIndex_of_known (hp : s.lzw.phase = .run) (hk : s.lzw.known (s.lzw.buf ++ [k]) = true) :
    s.takeIndex k = some (s.setBuf (s.lzw.buf ++ [k])) := by
  rw [State.takeIndex, if_neg (by simp [hp]), if_pos hk]

variable {c : Nat} (hp : s.lzw.phase = .run) (hk : s.lzw.known (s.lzw.buf ++ [k]) = false)
  (hc : s.lzw.codeOf s.lzw.buf = some c)
include hp hk hc

theorem takeIndex_of_unknown :
    s.takeIndex k = some (((s.bpPush c s.lzw.w).dictInsert (s.lzw.buf ++ [k])).setBuf [k]) := by
  rw [State.takeIndex, if_neg (by simp [hp]), if_neg (by simp [hk]), hc]

/-- With a free code the extension becomes an entry. -/
theorem takeIndex_of_room (hn : s.lzw.next ≠ Config.maxCodes) :
    s.takeIndex k =
      some { s.bpPush c s.lzw.w with lzw := { s.lzw.addEntry (s.lzw.buf ++ [k]) with buf := [k] } } := by
  rw [takeIndex_of_unknown hp hk hc, State.dictInsert, if_neg (by simpa using hn), bpPush_lzw]
  rfl

/-- With all codes used a clear code leaves at 12 bits and the table is emptied. -/
theorem takeIndex_of_full (hn : s.lzw.next = Config.maxCodes) :
    s.takeIndex k =
      some { (s.bpPush c s.lzw.w).bpPush s.lzw.clearCode Config.maxCodeWidth with
        lzw := { s.lzw.clearTable with buf := [k] } } := by
  rw [takeIndex_of_unknown hp hk hc, State.dictInsert, if_pos (by simpa using hn)]
  simp [State.setBuf]

end TakeIndex

theorem takeIndex_phase {s t : State} {k : Nat} (hp : s.lzw.phase ≠ .idle) (h : s.takeIndex k = some t) :
    t.lzw.phase = .run := by
  rcases takeIndex_cases h with ⟨_, rfl⟩ | ⟨hf, _, rfl⟩ | ⟨_, hf, _, _, rfl⟩
  · rfl
  · exact Phase.eq_run hp hf
  · simpa using Phase.eq_run hp hf

theorem takeIndexAndRespond_of_some {s t : State} {k : Nat} (h : s.takeIndex k = some t) (v : Nat) :
    takeIndexAndRespond k v s = respond v t := by
  rw [takeIndexAndRespond, h]

/-- A command that takes an index and answers leaves the tables. -/
theorem succeeds_of_takeIndex {i : Instr} {s t : State} {k v : Nat} (h : exec i s = takeIndexAndRespond k v s)
    (ht : s.takeIndex k = some t) (hs : s.fault = none) (hv : v < 2 ^ 24) :
    Succeeds i s (t.answer v) v ∧ SameTables s (t.answer v) := by
  obtain ⟨hfault, hct0, hct1, hport, -⟩ := takeIndex_frame ht
  exact ⟨succeeds_of_respond (h.trans (takeIndexAndRespond_of_some ht v)) (hfault.trans hs) hport hv, hct0, hct1⟩

/-! ### LZW_SYM (42_lzw R174) -/

section LzwSym
variable {s : State} (hs : s.fault = none) {k : Nat}
include hs

theorem exec_lzwSym_of_idle (hp : s.lzw.phase = .idle) : exec (.lzwSym k) s = raiseFault .badPhase s := by
  rw [exec, execLzwSym, unlessFaulted_none hs, if_pos hp]

theorem exec_lzwSym_of_le (hp : s.lzw.phase ≠ .idle) (hk : s.lzw.indexBound ≤ k) :
    exec (.lzwSym k) s = raiseFault .indexOutOfRange s := by
  rw [exec, execLzwSym, unlessFaulted_none hs, if_neg hp, if_neg (Nat.not_lt.mpr hk)]

theorem exec_lzwSym_of_lt (hp : s.lzw.phase ≠ .idle) (hk : k < s.lzw.indexBound) :
    exec (.lzwSym k) s = takeIndexAndRespond k 0 s := by
  rw [exec, execLzwSym, unlessFaulted_none hs, if_neg hp, if_pos hk]

theorem succeeds_lzwSym (hp : s.lzw.phase ≠ .idle) (hk : k < s.lzw.indexBound) {t : State}
    (ht : s.takeIndex k = some t) : Succeeds (.lzwSym k) s (t.answer 0) 0 ∧ SameTables s (t.answer 0) :=
  succeeds_of_takeIndex (exec_lzwSym_of_lt hs hp hk) ht hs (by decide)

end LzwSym

/-- The word of format I whose operand field is the index. -/
theorem decode_lzwSym (k : BitVec 16) : decode (0x41#8 ++ 0#8 ++ k) = .ok (.lzwSym k.toNat) :=
  Laws.decode_ok_of_toNat (decide_eq_true k.isLt) (Laws.toNat_wordI 0x41#8 k)

/-- Settles O43, from the four equations of `takeIndex`. -/
theorem lzwSymTakesOneIndex : Obligations.LzwSymTakesOneIndex := by
  unfold Obligations.LzwSymTakesOneIndex
  refine ⟨decode_lzwSym, fun arg => Laws.decode_append_error (Laws.decodeFields_lzwSym _), fun s k hs =>
    ⟨fun hp => endsFaulted_of_raise (exec_lzwSym_of_idle hs hp),
      fun hp hk => endsFaulted_of_raise (exec_lzwSym_of_le hs hp hk), fun hp hk => ?_, fun hp hk hknown => ?_,
      fun c hp hk hnew hc hn => ?_, fun c hp hk hnew hc hn => ?_⟩⟩
  · obtain ⟨ht, htab⟩ := succeeds_lzwSym hs (by simp [hp]) hk (takeIndex_of_first hp)
    exact ⟨_, ht, rfl, htab, rfl, rfl⟩
  · obtain ⟨ht, htab⟩ := succeeds_lzwSym hs (by simp [hp]) hk (takeIndex_of_known hp hknown)
    exact ⟨_, ht, rfl, htab, rfl, rfl⟩
  · obtain ⟨ht, htab⟩ := succeeds_lzwSym hs (by simp [hp]) hk (takeIndex_of_room hp hnew hc hn)
    exact ⟨_, ht, htab, rfl, rfl, rfl⟩
  · obtain ⟨ht, htab⟩ := succeeds_lzwSym hs (by simp [hp]) hk (takeIndex_of_full hp hnew hc hn)
    exact ⟨_, ht, htab, rfl, rfl, rfl⟩

/-! ### LZW_PIX (42_lzw R178) -/

section LzwPix
variable {s : State} (hs : s.fault = none) {c : Color}
include hs

theorem exec_lzwPix_of_idle (hp : s.lzw.phase = .idle) : exec (.lzwPix c) s = raiseFault .badPhase s := by
  rw [exec, execLzwPix, unlessFaulted_none hs, if_pos hp]

theorem exec_lzwPix_of_none (hp : s.lzw.phase ≠ .idle) (hc : (s.bank s.lzw.bank).indexOf c = none) :
    exec (.lzwPix c) s = raiseFault .notFound s := by
  rw [exec, execLzwPix, unlessFaulted_none hs, if_neg hp, hc]

theorem exec_lzwPix_of_some (hp : s.lzw.phase ≠ .idle) {i : Nat} (hc : (s.bank s.lzw.bank).indexOf c = some i) :
    exec (.lzwPix c) s =
      if i < s.lzw.indexBound then takeIndexAndRespond i i s else raiseFault .indexOutOfRange s := by
  rw [exec, execLzwPix, unlessFaulted_none hs, if_neg hp, hc]

end LzwPix

theorem decode_lzwPix (c : Color) : decode (0x42#8 ++ c) = .ok (.lzwPix c) := by
  refine Laws.decode_ok_of_toNat rfl ?_
  rw [Laws.toNat_append_add]
  rfl

/-- In an open stream of a good state every index is taken (10_state R37). -/
theorem Lzw.Inv.takeIndex_isSome {s : State} (hl : s.lzw.Inv) (hp : s.lzw.phase ≠ .idle) (k : Nat) :
    ∃ t, s.takeIndex k = some t := by
  have hbuf := ((Lzw.inv_iff _).mp hl).2
  by_cases hf : s.lzw.phase = .first
  · exact Machine.takeIndex_isSome k (.inl hf)
  · exact Machine.takeIndex_isSome k (.inr (hbuf.known_of_run (Phase.eq_run hp hf)))

/-- Settles O44: both commands leave what `takeIndex` of the index leaves, apart from the response. -/
theorem lzwPixIsLookupThenSym : Obligations.LzwPixIsLookupThenSym := by
  unfold Obligations.LzwPixIsLookupThenSym
  refine ⟨decode_lzwPix, fun s c hs => ⟨fun hp => endsFaulted_of_raise (exec_lzwPix_of_idle hs hp),
    fun hp hc => endsFaulted_of_raise (exec_lzwPix_of_none hs hp (indexOf_of_not_mem hc)),
    fun i hp hinv hi hk => ?_, fun i hp hinv hi hk => ?_⟩⟩
  all_goals
    obtain ⟨hbanks, hl, -⟩ := s.inv_iff.mp hinv
    have hex := exec_lzwPix_of_some hs hp (indexOf_of_getElem? (hbanks _).1 hi)
  · exact endsFaulted_of_raise (hex.trans (if_neg (Nat.not_lt.mpr hk)))
  · obtain ⟨t, ht⟩ := hl.takeIndex_isSome hp i
    have hlt : i < (s.bank s.lzw.bank).n := (List.getElem?_eq_some_iff.mp hi).1
    have hn := (hbanks s.lzw.bank).n_add_rsv_le
    exact ⟨_, _, (succeeds_of_takeIndex (hex.trans (if_pos hk)) ht hs (by omega)).1, (succeeds_lzwSym hs hp hk ht).1,
      rfl, ⟨rfl, rfl⟩, rfl, rfl⟩

/-! ### LZW_END (42_lzw R179) -/

/-- The stream closed behind the buffer's code `c` and the end code (42_lzw R179). -/
def endStream (c : Nat) (s : State) : State :=
  ((s.bpPush c s.lzw.w).bpPush s.lzw.endCode s.lzw.w).bpFlush.closeStream

theorem endStream_lzw (c : Nat) (s : State) : (endStream c s).lzw = { s.lzw with buf := [], phase := .idle } := by
  simp [endStream]

/-- The buffer's code and the end code leave at one width, as one code of twice that width. -/
theorem endStream_out (c : Nat) (s : State) :
    (endStream c s).out = s.out ++ lowBytes ((s.bp.nbits + s.lzw.w + s.lzw.w + 7) / 8)
      (s.bp.acc + c * 2 ^ s.bp.nbits + (2 ^ s.lzw.m + 1) * 2 ^ (s.bp.nbits + s.lzw.w)) := by
  have hvalue : s.bp.acc + (c + 2 ^ s.lzw.w * s.lzw.endCode) * 2 ^ s.bp.nbits =
      s.bp.acc + c * 2 ^ s.bp.nbits + (2 ^ s.lzw.m + 1) * 2 ^ (s.bp.nbits + s.lzw.w) := by
    rw [Lzw.endCode, Nat.pow_add]
    ring
  rw [endStream, closeStream_out, bpPush_bpPush, bpPush_bpFlush_out, hvalue, ← Nat.add_assoc]

section LzwEnd
variable {s : State} (hs : s.fault = none)
include hs

theorem exec_lzwEnd_of_idle (hp : s.lzw.phase = .idle) : exec .lzwEnd s = raiseFault .badPhase s := by
  rw [exec, execLzwEnd, unlessFaulted_none hs, hp]

theorem exec_lzwEnd_of_first (hp : s.lzw.phase = .first) : exec .lzwEnd s = raiseFault .emptyInput s := by
  rw [exec, execLzwEnd, unlessFaulted_none hs, hp]

theorem exec_lzwEnd_of_run (hp : s.lzw.phase = .run) {c : Nat} (hc : s.lzw.codeOf s.lzw.buf = some c) :
    exec .lzwEnd s = respond 0 (endStream c s) := by
  rw [exec, execLzwEnd, unlessFaulted_none hs, hp, hc]
  rfl

theorem succeeds_lzwEnd (hp : s.lzw.phase = .run) {c : Nat} (hc : s.lzw.codeOf s.lzw.buf = some c) :
    Succeeds .lzwEnd s ((endStream c s).answer 0) 0 :=
  succeeds_of_respond (exec_lzwEnd_of_run hs hp hc) (by simpa [endStream] using hs) (by simp [endStream]) (by decide)

end LzwEnd

/-- Settles O45, by `endStream_out`. -/
theorem lzwEndClosesStream : Obligations.LzwEndClosesStream := by
  unfold Obligations.LzwEndClosesStream
  refine ⟨Laws.encodedZ_of_row Laws.decodeFields_lzwEnd, fun s hs =>
    ⟨fun hp => endsFaulted_of_raise (exec_lzwEnd_of_idle hs hp),
      fun hp => endsFaulted_of_raise (exec_lzwEnd_of_first hs hp), fun c hp hc => ?_⟩⟩
  exact ⟨_, succeeds_lzwEnd hs hp hc, by simp [SameTables, endStream], by simp [endStream], endStream_lzw c s,
    endStream_out c s⟩

/-! ### The phase machine (42_lzw R180) -/

/-- The row of R180 for a command that succeeds: the phases it may find and leave. -/
def PhaseMove (p p' : Phase) : Instr → Prop
  | .lzwStart _ => p = .idle ∧ p' = .first
  | .lzwSym _ | .lzwPix _ => p ≠ .idle ∧ p' = .run
  | .lzwEnd => p = .run ∧ p' = .idle
  | .sysReset => p' = .idle
  | .bpPush .. | .bpFlush | .ctSerialize _ => p = .idle ∧ p' = p
  | .sysNop | .sysStatus | .packTcf .. | .packIcf .. | .packGcf .. | .ctNew _ | .ctInsert .. | .ctLookup ..
  | .ctColorAt .. | .ctReserve _ | .ctTransp _ | .ctSize _ | .ctDeclen _ | .ctBytelen _ | .ctUlen _ | .lzwNext => p' = p

theorem phaseMove_of_readOnly {i : Instr} (hi : readOnly i = true) (p : Phase) : PhaseMove p p i := by
  cases i with
  | sysReset | ctSerialize _ | lzwStart _ | lzwSym _ | lzwPix _ | lzwEnd | bpPush _ _ | bpFlush => cases hi
  | _ => rfl

theorem Effect.phaseMove {i : Instr} {s t : State} (h : Effect i s t) : PhaseMove s.lzw.phase t.lzw.phase i := by
  cases h with
  | read hr => exact phaseMove_of_readOnly hr _
  | ctNew _ _ | ctInsert _ _ _ | ctReserve _ | ctTransp _ => simp [PhaseMove]
  | ctSerialize hp => exact ⟨hp, by simp⟩
  | lzwStart hp => exact ⟨hp, by simp⟩
  | lzwSym hp _ h | lzwPix hp _ _ h => exact ⟨hp, takeIndex_phase hp h⟩
  | lzwEnd hp _ => exact ⟨hp, rfl⟩
  | bpPush hp _ _ _ => exact ⟨hp, by simp⟩
  | bpFlush hp => exact ⟨hp, by simp⟩

theorem phaseMove_of_succeeds {i : Instr} {s t : State} (h : exec i s = .next t) (ht : t.fault = none) :
    PhaseMove s.lzw.phase t.lzw.phase i := by
  by_cases hi : i = .sysReset
  · subst hi
    obtain ⟨-, -, hlzw, -⟩ := sysReset_next_block h
    rw [hlzw]
    rfl
  · obtain ⟨-, v, s', he, rfl⟩ := exec_next_effect h ht hi
    exact he.phaseMove

theorem exec_bpPush_of_not_idle {s : State} (hs : s.fault = none) (hp : s.lzw.phase ≠ .idle) (v w : Nat) :
    exec (.bpPush v w) s = raiseFault .badPhase s := by
  rw [exec, execBpPush, unlessFaulted_none hs, if_pos hp]

theorem exec_bpFlush_of_not_idle {s : State} (hs : s.fault = none) (hp : s.lzw.phase ≠ .idle) :
    exec .bpFlush s = raiseFault .badPhase s := by
  rw [exec, execBpFlush, unlessFaulted_none hs, if_pos hp]

/-- Settles O46: `PhaseMove` is the table of the moves, and each refusal is the command's first check. -/
theorem phaseMachine : Obligations.PhaseMachine := by
  unfold Obligations.PhaseMachine
  refine ⟨fun i s t _ h ht => ?_, fun s hs => ⟨fun hp => ?_, fun hp => ?_, fun hp => ?_⟩⟩
  · have hm := phaseMove_of_succeeds h ht
    refine ⟨?_, ?_, ?_, ?_, ?_, ?_, fun hstart hsym hpix hend hreset => ?_⟩
    · rintro u rfl
      exact hm
    · rintro k rfl
      exact ⟨hm.1, fun _ => hm.2, fun _ => hm.2⟩
    · rintro c rfl
      exact ⟨hm.1, fun _ => hm.2, fun _ => hm.2⟩
    · rintro rfl
      exact hm
    · rintro rfl
      exact hm
    · rintro (⟨v, w, rfl⟩ | rfl | ⟨u, rfl⟩) <;> exact hm.1
    · cases i with
      | lzwStart u => exact absurd rfl (hstart u)
      | lzwSym k => exact absurd rfl (hsym k)
      | lzwPix c => exact absurd rfl (hpix c)
      | lzwEnd => exact absurd rfl hend
      | sysReset => exact absurd rfl hreset
      | bpPush _ _ | bpFlush | ctSerialize _ => exact hm.2
      | _ => exact hm
  · exact ⟨fun k => endsFaulted_of_raise (exec_lzwSym_of_idle hs hp),
      fun c => endsFaulted_of_raise (exec_lzwPix_of_idle hs hp), endsFaulted_of_raise (exec_lzwEnd_of_idle hs hp)⟩
  · exact endsFaulted_of_raise (exec_lzwEnd_of_first hs hp)
  · exact ⟨fun u => endsFaulted_of_raise (exec_lzwStart_of_not_idle hs hp u),
      fun v w => endsFaulted_of_raise (exec_bpPush_of_not_idle hs hp v w),
      endsFaulted_of_raise (exec_bpFlush_of_not_idle hs hp),
      fun u => endsFaulted_of_raise ((exec_ctSerialize hs u).trans (if_neg hp))⟩

/-! ### A whole stream (42_lzw R181) -/

/-- The codes that a running stream still emits for the indices `ks`: the loop of `compress` from its code table on. -/
def Lzw.remainingCodes (l : Lzw) (ks : List Nat) : Option (List (Nat × Nat)) :=
  compressFrom l.m l.w l.next l.dict l.buf ks

/-- With no index left, the buffer's code and the end code remain. -/
theorem Lzw.remainingCodes_nil {l : Lzw} {codes : List (Nat × Nat)} (h : l.remainingCodes [] = some codes) :
    ∃ c, l.codeOf l.buf = some c ∧ codes = [(c, l.w), (l.endCode, l.w)] := by
  obtain ⟨c, hc, rfl⟩ := Option.map_eq_some_iff.mp h
  exact ⟨c, hc, rfl⟩

/-- The three things one round of the loop of `compress` can be, as `takeIndex` writes the LZW unit. -/
theorem Lzw.remainingCodes_cons {l : Lzw} {k : Nat} {ks : List Nat} {codes : List (Nat × Nat)}
    (h : l.remainingCodes (k :: ks) = some codes) :
    (l.known (l.buf ++ [k]) = true ∧ { l with buf := l.buf ++ [k] : Lzw }.remainingCodes ks = some codes) ∨
    (∃ c rest, l.known (l.buf ++ [k]) = false ∧ l.codeOf l.buf = some c ∧ l.next = Config.maxCodes ∧
      { l.clearTable with buf := [k] : Lzw }.remainingCodes ks = some rest ∧
      codes = [(c, l.w), (l.clearCode, Config.maxCodeWidth)] ++ rest) ∨
    (∃ c rest, l.known (l.buf ++ [k]) = false ∧ l.codeOf l.buf = some c ∧ l.next ≠ Config.maxCodes ∧
      { l.addEntry (l.buf ++ [k]) with buf := [k] : Lzw }.remainingCodes ks = some rest ∧
      codes = [(c, l.w)] ++ rest) := by
  rw [Lzw.remainingCodes, compressFrom] at h
  split at h
  · next hknown => exact .inl ⟨hknown, h⟩
  · next hnew =>
    have hnew : l.known (l.buf ++ [k]) = false := Bool.eq_false_iff.mpr hnew
    split at h
    · cases h
    · next c hc =>
      split at h
      · next hn =>
        obtain ⟨rest, hrest, rfl⟩ := Option.map_eq_some_iff.mp h
        exact .inr (.inl ⟨c, rest, hnew, hc, hn, hrest, rfl⟩)
      · next hn =>
        obtain ⟨rest, hrest, rfl⟩ := Option.map_eq_some_iff.mp h
        exact .inr (.inr ⟨c, rest, hnew, hc, hn, hrest, rfl⟩)

/-- One index taken is one round of the loop: it emits the round's codes, and the others remain. -/
theorem takeIndex_of_remainingCodes {s : State} {k : Nat} {ks : List Nat} {codes : List (Nat × Nat)}
    (hp : s.lzw.phase = .run) (h : s.lzw.remainingCodes (k :: ks) = some codes) :
    ∃ t cs rest, s.takeIndex k = some t ∧ codes = cs ++ rest ∧ Emitted s cs t ∧
      t.lzw.remainingCodes ks = some rest := by
  rcases Lzw.remainingCodes_cons h with ⟨hknown, hrest⟩ | ⟨c, rest, hnew, hc, hn, hrest, rfl⟩ |
    ⟨c, rest, hnew, hc, hn, hrest, rfl⟩
  · exact ⟨_, [], codes, takeIndex_of_known hp hknown, rfl, ⟨rfl, rfl⟩, hrest⟩
  · exact ⟨_, _, rest, takeIndex_of_full hp hnew hc hn, rfl, ⟨rfl, rfl⟩, hrest⟩
  · exact ⟨_, _, rest, takeIndex_of_room hp hnew hc hn, rfl, ⟨rfl, rfl⟩, hrest⟩

/-- From a running stream the LZW_SYMs and LZW_END push the remaining codes and flush. -/
theorem execAll_lzwSyms_lzwEnd {s : State} {ks : List Nat} {codes : List (Nat × Nat)} (hs : s.fault = none)
    (hp : s.lzw.phase = .run) (hks : ∀ k ∈ ks, k < s.lzw.indexBound) (h : s.lzw.remainingCodes ks = some codes) :
    ∃ t, execAll (ks.map .lzwSym ++ [.lzwEnd]) s = .next t ∧ t.fault = none ∧
      t.out = (s.pushAll codes).bpFlush.out ∧ t.lzw.phase = .idle := by
  induction ks generalizing s codes with
  | nil =>
    obtain ⟨c, hc, rfl⟩ := Lzw.remainingCodes_nil h
    obtain ⟨hex, hf, -⟩ := succeeds_lzwEnd hs hp hc
    exact ⟨_, execAll_cons_of_next hex, hf, rfl, rfl⟩
  | cons k ks ih =>
    obtain ⟨hk, hks⟩ := List.forall_mem_cons.mp hks
    have hopen : s.lzw.phase ≠ .idle := by simp [hp]
    obtain ⟨r, cs, rest, hr, rfl, hemit, hrest⟩ := takeIndex_of_remainingCodes hp h
    obtain ⟨⟨hex, hf, -⟩, -⟩ := succeeds_lzwSym hs hopen hk hr
    obtain ⟨-, -, -, -, hsf, -⟩ := takeIndex_frame hr
    have hbound : r.lzw.indexBound = s.lzw.indexBound := by rw [Lzw.indexBound, hsf, Lzw.indexBound]
    have hrun : (r.answer 0).lzw.phase = .run := by rw [answer_lzw, takeIndex_phase hopen hr]
    have hemit : Emitted s cs (r.answer 0) := hemit
    obtain ⟨t, ht, htf, hout, hidle⟩ := ih hf hrun (hbound ▸ hks) hrest
    exact ⟨t, (execAll_cons_of_next hex).trans ht, htf, hout.trans (hemit.pushAll rest).bpFlush_out, hidle⟩

/-- `compress` is the clear code and the loop from the table that LZW_START leaves and a buffer of the first index. -/
theorem compress_cons {sf k : Nat} {ks : List Nat} {codes : List (Nat × Nat)}
    (h : compress sf (k :: ks) = some codes) :
    ∃ rest, compressFrom (minCodeSize sf) (minCodeSize sf + 1) (2 ^ minCodeSize sf + 2) [] [k] ks = some rest ∧
      codes = [(2 ^ minCodeSize sf, minCodeSize sf + 1)] ++ rest := by
  obtain ⟨rest, hrest, rfl⟩ := Option.map_eq_some_iff.mp h
  exact ⟨rest, hrest, rfl⟩

/-- The first index starts the buffer and emits nothing. -/
theorem execAll_lzwSyms_lzwEnd_of_first {s : State} {k : Nat} {ks : List Nat} {codes : List (Nat × Nat)}
    (hs : s.fault = none) (hp : s.lzw.phase = .first) (hks : ∀ j ∈ k :: ks, j < s.lzw.indexBound)
    (h : { s.lzw with buf := [k] : Lzw }.remainingCodes ks = some codes) :
    ∃ t, execAll ((k :: ks).map .lzwSym ++ [.lzwEnd]) s = .next t ∧ t.fault = none ∧
      t.out = (s.pushAll codes).bpFlush.out ∧ t.lzw.phase = .idle := by
  obtain ⟨hk, hks⟩ := List.forall_mem_cons.mp hks
  obtain ⟨⟨hex, hf, -⟩, -⟩ := succeeds_lzwSym hs (by simp [hp]) hk (takeIndex_of_first hp)
  obtain ⟨t, ht, htf, hout, hidle⟩ := execAll_lzwSyms_lzwEnd hf rfl hks h
  refine ⟨t, (execAll_cons_of_next hex).trans ht, htf,
    hout.trans (Emitted.bpFlush_out (Emitted.pushAll (cs := []) ?_ codes)), hidle⟩
  exact ⟨rfl, rfl⟩

/-- A whole stream pushes the codes of `compress` into the packer that LZW_START empties, and flushes. -/
theorem execAll_lzwRun {s : State} {u : BankId} {ks : List Nat} {codes : List (Nat × Nat)} (hs : s.fault = none)
    (hp : s.lzw.phase = .idle) (hb : (s.bank u).Inv) (hks : ∀ k ∈ ks, k < 2 ^ ((s.bank u).sizeField + 1))
    (h : compress (s.bank u).sizeField ks = some codes) :
    ∃ t, execAll (lzwRun u ks) s = .next t ∧ t.fault = none ∧
      t.out = ((s.openStream u).pushAll codes).bpFlush.out ∧ t.lzw.phase = .idle := by
  cases ks with
  | nil => cases h
  | cons k ks =>
    obtain ⟨rest, hrest, rfl⟩ := compress_cons h
    obtain ⟨hstart, hf, -⟩ := succeeds_lzwStart hs hp hb
    have hlzw : ((startStream u s).answer (minCodeSize (s.bank u).sizeField)).lzw = (s.openStream u).lzw :=
      startStream_lzw u s
    obtain ⟨t, ht, htf, hout, hidle⟩ := execAll_lzwSyms_lzwEnd_of_first hf (by rw [hlzw, openStream_phase])
      (by rw [hlzw]; exact hks) (by rw [hlzw]; exact hrest)
    have hemit : Emitted (s.openStream u)
        [(2 ^ minCodeSize (s.bank u).sizeField, minCodeSize (s.bank u).sizeField + 1)]
        ((startStream u s).answer (minCodeSize (s.bank u).sizeField)) := ⟨rfl, rfl⟩
    exact ⟨t, (execAll_cons_of_next hstart).trans ht, htf, hout.trans (hemit.pushAll rest).bpFlush_out, hidle⟩

/-- Settles O47: the codes of `compress`, defined for legal indices, are pushed into an empty packer and flushed,
which is `pack_lsb` of them. -/
theorem streamIsPackedCompress : Obligations.StreamIsPackedCompress := by
  unfold Obligations.StreamIsPackedCompress
  intro s u ks hs hp hb hne hks
  obtain ⟨codes, hcodes, -⟩ := registerFormEmitsSameCodes _ ks hb.sizeField_le hne hks
  obtain ⟨t, ht, hf, hout, hidle⟩ := execAll_lzwRun hs hp hb hks hcodes
  exact ⟨t, codes, hcodes, ht, hf, by rw [hout, pushAll_bpFlush_out rfl rfl, openStream_out], hidle⟩

end Sys2Proof.Machine

/-! PROOFS of the bit-packer family (43_bit_packer): the word of BP_PUSH, the bytes of a number, and what BP_PUSH and
BP_FLUSH do to an unfaulted block. -/

namespace Sys2Proof.Laws

/-! ### The word of BP_PUSH (30_encoding R82) -/

/-- The word of format P: an opcode, eight unused bits, a width and a code. -/
theorem toNat_wordP (op : BitVec 8) (width : BitVec 4) (v : BitVec 12) :
    (op ++ 0#8 ++ width ++ v).toNat = op.toNat * 2 ^ 24 + (width.toNat * 2 ^ 12 + v.toNat) := by
  simp only [toNat_append_add, BitVec.toNat_ofNat]
  omega

theorem decode_bpPush (width : BitVec 4) (v : BitVec 12) :
    decode (0x50#8 ++ 0#8 ++ width ++ v) = .ok (.bpPush v.toNat width.toNat) :=
  decode_ok_of_toNat (Bool.and_eq_true_iff.mpr ⟨decide_eq_true v.isLt, fitsSlot_toNat width⟩)
    (toNat_wordP 0x50#8 width v)

end Sys2Proof.Laws

namespace Sys2Proof.Machine

/-! ### The bytes of a number (43 R215) -/

/-- The low `k` bytes laid end to end are the number modulo `256^k`. -/
theorem codesValue_lowBytes (k n : Nat) : codesValue ((lowBytes k n).map fun b => (b.toNat, 8)) = n % 256 ^ k := by
  induction k generalizing n with
  | zero => rw [Nat.pow_zero, Nat.mod_one]; rfl
  | succ k ih =>
    rw [lowBytes_succ, List.map_cons, codesValue, ih, BitVec.toNat_ofNat, pow_succ' 256 k, Nat.mod_mul]
    rfl

/-- No bit is lost between the low `k` bytes and what stands above them. -/
theorem codesValue_lowBytes_add_div (k n : Nat) :
    codesValue ((lowBytes k n).map fun b => (b.toNat, 8)) + n / 256 ^ k * 2 ^ (8 * k) = n := by
  rw [codesValue_lowBytes, Nat.pow_mul]
  exact Nat.mod_add_div' n (256 ^ k)

/-! ### BP_PUSH (43 R213) -/

section BpPush
variable {s : State} (hs : s.fault = none) (hp : s.lzw.phase = .idle) {v w : Nat}
include hs hp

/-- The checks behind BadPhase, in order. -/
theorem exec_bpPush_of_idle :
    exec (.bpPush v w) s =
      if w < 2 ∨ 12 < w then raiseFault .badWidth s
      else if v < 2 ^ w then respond 0 (s.bpPush v w)
      else raiseFault .codeTooWide s := by
  rw [exec, execBpPush, unlessFaulted_none hs, if_neg (not_not_intro hp)]
  simp only [fits, decide_eq_true_eq, Config.bpMinWidth, Config.bpMaxWidth]

theorem exec_bpPush_of_badWidth (hw : ¬ (2 ≤ w ∧ w ≤ 12)) : exec (.bpPush v w) s = raiseFault .badWidth s := by
  rw [exec_bpPush_of_idle hs hp, if_pos (by omega)]

theorem exec_bpPush_of_tooWide (h2 : 2 ≤ w) (h12 : w ≤ 12) (hv : 2 ^ w ≤ v) :
    exec (.bpPush v w) s = raiseFault .codeTooWide s := by
  rw [exec_bpPush_of_idle hs hp, if_neg (by omega), if_neg (Nat.not_lt.mpr hv)]

theorem succeeds_bpPush (h2 : 2 ≤ w) (h12 : w ≤ 12) (hv : v < 2 ^ w) :
    Succeeds (.bpPush v w) s ((s.bpPush v w).answer 0) 0 := by
  refine succeeds_of_respond ?_ (by simpa using hs) (by simp) (by decide)
  rw [exec_bpPush_of_idle hs hp, if_neg (by omega), if_pos hv]

end BpPush

/-- Settles O38: the bytes are `lowBytes` of the old bits with the code above them, and the quotient stays pending. -/
theorem bpPushAppendsCode : Obligations.BpPushAppendsCode := by
  unfold Obligations.BpPushAppendsCode
  refine ⟨Laws.decode_bpPush, fun arg => Laws.decode_append_error (Laws.decodeFields_bpPush _), fun s v width hs =>
    ⟨fun hp => endsFaulted_of_raise (exec_bpPush_of_not_idle hs hp v width),
      fun hp hw => endsFaulted_of_raise (exec_bpPush_of_badWidth hs hp hw),
      fun hp h2 h12 hv => endsFaulted_of_raise (exec_bpPush_of_tooWide hs hp h2 h12 hv), fun hp h2 h12 hv hb => ?_⟩⟩
  have hpending := hb.1
  refine ⟨_, _, succeeds_bpPush hs hp h2 h12 hv, bpPush_out s v width, ?_, by simp [SameTables], by simp,
    bpPush_inv hb hv, ?_, ?_⟩
  · rw [lowBytes_length]
    omega
  · rw [lowBytes_length, answer_bp, bpPush_nbits]
    exact Nat.div_add_mod _ 8
  · rw [lowBytes_length, answer_bp, bpPush_acc]
    exact codesValue_lowBytes_add_div _ _

/-! ### A list of codes (43 R215) -/

/-- Settles O40, by `pushAll_bpFlush_out`: a list of codes is pushed as one code, which the flush pads to whole bytes.
The fit of the codes is not needed: `codesValue` adds what an overlong code has too much to the next one, as the packer
does. -/
theorem pushesThenFlushArePackLsb : Obligations.PushesThenFlushArePackLsb := by
  unfold Obligations.PushesThenFlushArePackLsb
  intro s codes hn ha _
  exact pushAll_bpFlush_out hn ha codes

/-! ### BP_FLUSH (43 R212, R214) -/

theorem succeeds_bpFlush {s : State} (hs : s.fault = none) (hp : s.lzw.phase = .idle) :
    Succeeds .bpFlush s (s.bpFlush.answer 0) 0 := by
  refine succeeds_of_respond ?_ (by simpa using hs) (by simp) (by decide)
  rw [exec, execBpFlush, unlessFaulted_none hs, if_neg (not_not_intro hp)]

/-- The pending bits of a good packer fit one byte (10_state R41, R42). -/
theorem Packer.Inv.acc_lt {p : Packer} (h : p.Inv) : p.acc < 2 ^ 8 :=
  h.2.trans_le (Nat.pow_le_pow_right (by decide) (h.1.trans (by decide)))

/-- Settles O39, by `bpFlush_out`: the byte is `acc`, whose bits above the pending ones are 0. -/
theorem bpFlushPadsToByte : Obligations.BpFlushPadsToByte := by
  unfold Obligations.BpFlushPadsToByte
  refine ⟨Laws.encodedZ_of_row Laws.decodeFields_bpFlush, fun s hs =>
    ⟨fun hp => endsFaulted_of_raise (exec_bpFlush_of_not_idle hs hp), fun hp hb => ?_⟩⟩
  refine ⟨_, _, succeeds_bpFlush hs hp, bpFlush_out s, by simp [SameTables], by simp, by simp, by simp, fun hn => ?_,
    fun hn => ⟨BitVec.ofNat 8 s.bp.acc, if_pos hn, ?_⟩⟩
  · rw [hn]
    rfl
  · rw [BitVec.toNat_ofNat, Nat.mod_eq_of_lt hb.acc_lt]

end Sys2Proof.Machine

/-! PROOFS of the system family (44_system_and_utilities): the commands SYS_NOP, SYS_RESET, SYS_STATUS and LZW_NEXT, and the
host's sub-block chunking. -/

namespace Sys2Proof.Machine

/-! ### SYS_NOP and SYS_RESET (44 R230, R231) -/

/-- Settles O19: unfaulted the command only responds, and a standing fault is answered as by every command but SYS_RESET. -/
theorem sysNopDoesNothing : Obligations.SysNopDoesNothing := by
  unfold Obligations.SysNopDoesNothing
  exact ⟨Laws.encodedZ_of_row Laws.decodeFields_sysNop,
    fun _ hs => reads_of_respond (unlessFaulted_none hs _) hs (by decide),
    fun _ _ hs => endsFaulted_of_faulted hs nofun⟩

theorem succeeds_sysReset (s : State) : Succeeds .sysReset s (s.resetBlock.answer 0) 0 :=
  succeeds_of_respond (exec_sysReset s) rfl rfl (by decide)

/-- Settles O20: `resetBlock` keeps nothing of the state but the ports, whether it is faulted or not. -/
theorem sysResetRestoresReset : Obligations.SysResetRestoresReset := by
  unfold Obligations.SysResetRestoresReset
  exact ⟨Laws.encodedZ_of_row Laws.decodeFields_sysReset,
    fun s => ⟨_, succeeds_sysReset s, rfl, rfl, rfl, rfl, rfl⟩⟩

/-! ### SYS_STATUS (44 R232) -/

/-- A bit field of a response that succeeds. -/
theorem toNat_extractLsb'_okWord {lo len : Nat} (h : lo + len ≤ 32) (v : Nat) :
    ((okWord v).extractLsb' lo len).toNat = v / 2 ^ lo % 2 ^ len := by
  rw [okWord, BitVec.extractLsb'_toNat, BitVec.toNat_ofNat, Nat.shiftRight_eq_div_pow,
    show 2 ^ 32 = 2 ^ lo * 2 ^ (32 - lo) by rw [← Nat.pow_add, Nat.add_sub_cancel' (by omega)],
    Nat.mod_mul_right_div_self, Nat.mod_mod_of_dvd _ (Nat.pow_dvd_pow 2 (by omega))]

theorem Phase.code_lt (p : Phase) : p.code < 2 ^ 2 := by cases p <;> decide

theorem bankNumber_lt (u : BankId) : bankNumber u < 2 ^ 1 := by cases u <;> decide

/-- Each register of the status word fits its field (10_state R30 to R34, R41). -/
structure StatusFits (s : State) : Prop where
  phase_lt : s.lzw.phase.code < 2 ^ 2
  w_lt : s.lzw.w < 2 ^ 4
  m_lt : s.lzw.m < 2 ^ 4
  sf_lt : s.lzw.sf < 2 ^ 3
  bank_lt : bankNumber s.lzw.bank < 2 ^ 1
  nbits_lt : s.bp.nbits < 2 ^ 3

theorem State.Inv.tableInv {s : State} (h : s.Inv) : s.lzw.TableInv := by
  obtain ⟨-, hl, -⟩ := (State.inv_iff s).mp h
  exact ((Lzw.inv_iff _).mp hl).1

theorem State.Inv.statusFits {s : State} (h : s.Inv) : StatusFits s := by
  obtain ⟨-, -, hn, -⟩ := (State.inv_iff s).mp h
  have hw : s.lzw.w ≤ 12 := h.tableInv.w_le
  have hm := h.tableInv.lt_w
  have hsf := h.tableInv.sf_le
  exact ⟨Phase.code_lt _, by omega, by omega, by omega, bankNumber_lt _, by omega⟩

theorem statusValue_lt {s : State} (h : StatusFits s) : statusValue s < 2 ^ 17 := by
  obtain ⟨hp, hw, hm, hsf, hb, hn⟩ := h
  unfold statusValue
  omega

/-- The fields of the status value are the registers: each stands clear of the ones below it, and nothing above them. -/
theorem statusValue_fields {s : State} (h : StatusFits s) :
    statusValue s / 2 ^ 0 % 2 ^ 2 = s.lzw.phase.code ∧ statusValue s / 2 ^ 2 % 2 ^ 4 = s.lzw.w ∧
      statusValue s / 2 ^ 6 % 2 ^ 4 = s.lzw.m ∧ statusValue s / 2 ^ 10 % 2 ^ 3 = s.lzw.sf ∧
      statusValue s / 2 ^ 13 % 2 ^ 1 = bankNumber s.lzw.bank ∧ statusValue s / 2 ^ 14 % 2 ^ 3 = s.bp.nbits ∧
      statusValue s / 2 ^ 17 % 2 ^ 15 = 0 := by
  obtain ⟨hp, hw, hm, hsf, hb, hn⟩ := h
  unfold statusValue
  omega

theorem reads_sysStatus {s : State} (hs : s.fault = none) (h : StatusFits s) : Reads .sysStatus s (statusValue s) :=
  reads_of_respond (unlessFaulted_none hs _) hs ((statusValue_lt h).trans (by decide))

/-- Settles O21, by `statusValue_fields`: in a good state every register fits its field. -/
theorem sysStatusFields : Obligations.SysStatusFields := by
  unfold Obligations.SysStatusFields
  refine ⟨Laws.encodedZ_of_row Laws.decodeFields_sysStatus, reads_sysStatus rfl resetMeetsInvariants.statusFits,
    fun s hs hinv => ?_⟩
  obtain ⟨t, ⟨ht, hf, hr⟩, hblock⟩ := reads_sysStatus hs hinv.statusFits
  refine ⟨t, okWord (statusValue s), ht, hf, hblock, hr, ?_⟩
  simp (disch := decide) only [toNat_extractLsb'_okWord]
  exact statusValue_fields hinv.statusFits

/-! ### LZW_NEXT (44 R233) -/

theorem Lzw.TableInv.next_le_maxCodes {l : Lzw} (h : l.TableInv) : l.next ≤ Config.maxCodes :=
  h.next_le.trans (Nat.pow_le_pow_right (by decide) h.w_le)

theorem reads_lzwNext {s : State} (hs : s.fault = none) (h : s.lzw.TableInv) : Reads .lzwNext s s.lzw.next :=
  reads_of_respond (unlessFaulted_none hs _) hs (h.next_le_maxCodes.trans_lt (by decide))

/-- Settles O22: the range of `next` and the size of the dictionary are those of a good code table. -/
theorem lzwNextReadsNext : Obligations.LzwNextReadsNext := by
  unfold Obligations.LzwNextReadsNext
  refine ⟨Laws.encodedZ_of_row Laws.decodeFields_lzwNext, reads_lzwNext rfl resetMeetsInvariants.tableInv,
    fun s hs hinv => ?_⟩
  have ht := hinv.tableInv
  exact ⟨reads_lzwNext hs ht, ht.dict_wf.1, ht.next_le_maxCodes, Dict.wf_length ht.dict_wf⟩

/-! ### Sub-block chunking (44 R240) -/

/-- One run of the chunking: a length byte and as many bytes, at most 255. -/
theorem subblockRuns_succ {p : List Byte} (hp : p ≠ []) (fuel : Nat) :
    subblockRuns (fuel + 1) p =
      BitVec.ofNat 8 (min 255 p.length) :: p.take 255 ++ subblockRuns fuel (p.drop 255) := by
  rw [subblockRuns, if_neg (by simpa using hp), List.take_eq_take_min (i := 255), List.drop_eq_drop_min (i := 255)]

theorem subblockRuns_nil (fuel : Nat) : subblockRuns fuel [] = [] := by cases fuel <;> rfl

/-- Fuel for as many runs as there are bytes is enough: every run takes a byte. -/
theorem subblockRuns_eq_of_le {fuel fuel' : Nat} {p : List Byte} (h : p.length ≤ fuel) (h' : p.length ≤ fuel') :
    subblockRuns fuel p = subblockRuns fuel' p := by
  induction fuel generalizing fuel' p with
  | zero => rw [List.eq_nil_of_length_eq_zero (Nat.le_zero.mp h), subblockRuns_nil, subblockRuns_nil]
  | succ fuel ih =>
    by_cases hp : p = []
    · rw [hp, subblockRuns_nil, subblockRuns_nil]
    · have hpos := List.length_pos_iff.mpr hp
      have hlen : (p.drop 255).length = p.length - 255 := List.length_drop
      obtain ⟨fuel', rfl⟩ : ∃ k, fuel' = k + 1 := Nat.exists_eq_add_one.mpr (by omega)
      rw [subblockRuns_succ hp, subblockRuns_succ hp, ih (fuel' := fuel') (by omega) (by omega)]

theorem subblocks_of_ne_nil {p : List Byte} (hp : p ≠ []) :
    subblocks p = BitVec.ofNat 8 (min 255 p.length) :: p.take 255 ++ subblocks (p.drop 255) := by
  have hpos := List.length_pos_iff.mpr hp
  have hlen : (p.drop 255).length = p.length - 255 := List.length_drop
  rw [subblocks, subblocks, subblockRuns_eq_of_le (Nat.le_refl _) (Nat.le_succ _), subblockRuns_succ hp,
    subblockRuns_eq_of_le (by omega) (Nat.le_refl _), List.append_assoc]

theorem subblocks_length (p : List Byte) : (subblocks p).length = p.length + (p.length + 254) / 255 + 1 := by
  induction hn : p.length using Nat.strong_induction_on generalizing p with
  | _ n ih =>
    by_cases hp : p = []
    · subst hp hn
      rfl
    · have hpos := List.length_pos_iff.mpr hp
      have hrest := ih (n - 255) (by omega) (p.drop 255) (by rw [List.length_drop, hn])
      rw [subblocks_of_ne_nil hp, List.length_append, hrest, List.length_cons, List.length_take]
      omega

/-- Settles O55, by `subblocks_of_ne_nil` and induction on the length of the payload. -/
theorem subblocksSplitGreedily : Obligations.SubblocksSplitGreedily := by
  unfold Obligations.SubblocksSplitGreedily
  exact ⟨rfl, fun _ => subblocks_of_ne_nil, subblocks_length⟩

end Sys2Proof.Machine

/-! PROOFS of the exceptions family (60_exceptions): fault entry, the sticky fault and the exit from it, and which
command raises which fault. -/

namespace Sys2Proof.Machine

/-! ### Fault entry, the sticky fault and its exit (60_exceptions R252 to R254) -/

/-- A command that takes an unfaulted block to a fault came to fault entry: its effects leave the fault register. -/
theorem exec_eq_raiseFault {i : Instr} {s t : State} {c : FaultCode} (hs : s.fault = none) (h : exec i s = .next t)
    (ht : t.fault = some c) : exec i s = raiseFault c s := by
  rcases exec_next_cases h with ⟨_, rfl⟩ | ⟨_, ⟨_, hc⟩, _⟩ | ⟨_, _, d, rfl⟩ | ⟨_, _, v, s', he, rfl⟩
  · cases ht
  · rw [hs] at hc
    cases hc
  · cases ht
    exact h
  · rw [answer_fault, he.fault_port.1, hs] at ht
    cases ht

/-- Settles O14, by `exec_eq_raiseFault`: fault entry writes the fault register and the response. -/
theorem faultEntryWritesOnlyFault : Obligations.FaultEntryWritesOnlyFault := by
  unfold Obligations.FaultEntryWritesOnlyFault
  intro i s t c hs h ht
  obtain ⟨t', h', _, hblock, hanswer⟩ := endsFaulted_of_raise (exec_eq_raiseFault hs h ht)
  rw [h] at h'
  cases h'
  exact ⟨hblock, hanswer⟩

/-- Settles O15, by `exec_of_faulted`: behind a standing fault only the response is written. -/
theorem standingFaultRefusesCommands : Obligations.StandingFaultRefusesCommands := by
  unfold Obligations.StandingFaultRefusesCommands
  exact fun _ _ _ => endsFaulted_of_faulted

/-- Settles O16: every other command only answers the fault, and `resetBlock` keeps the ports alone. -/
theorem onlyResetLeavesFault : Obligations.OnlyResetLeavesFault := by
  unfold Obligations.OnlyResetLeavesFault
  refine ⟨fun i s t c hs h ht => ?_, fun s => ⟨_, exec_sysReset s, rfl⟩⟩
  by_contra hi
  rw [exec_of_faulted hs hi] at h
  cases h
  exact ht hs

/-! ### Which command raises which fault (60_exceptions R251) -/

/-- The faults a command can raise: the "Raised by" column of R251, read by command. -/
@[simp] def faultsOf : Instr → List FaultCode
  | .packTcf _ _ _ _ | .packIcf _ _ _ _ => [.fieldOverflow]
  | .packGcf _ _ _ => [.fieldOverflow, .badDisposal]
  | .ctInsert _ _ => [.tableSealed, .duplicateColor, .tableFull]
  | .ctLookup _ _ => [.notFound]
  | .ctColorAt _ _ => [.indexOutOfRange]
  | .ctReserve _ | .ctTransp _ => [.tableSealed, .tableFull]
  | .ctSerialize _ | .lzwStart _ | .bpFlush => [.badPhase]
  | .lzwSym _ => [.badPhase, .indexOutOfRange]
  | .lzwPix _ => [.badPhase, .notFound, .indexOutOfRange]
  | .lzwEnd => [.badPhase, .emptyInput]
  | .bpPush _ _ => [.badPhase, .badWidth, .codeTooWide]
  | .sysNop | .sysReset | .sysStatus | .ctNew _ | .ctSize _ | .ctDeclen _ | .ctBytelen _ | .ctUlen _ | .lzwNext => []

/-- Where the answer leaves a fault, it is one of `cs`. -/
def FaultsAmong (cs : List FaultCode) (r : Result) : Prop := ∀ t c, r = .next t → t.fault = some c → c ∈ cs

namespace FaultsAmong
variable {cs : List FaultCode} {s : State}

theorem raise {c : FaultCode} (h : c ∈ cs := by simp) : FaultsAmong cs (raiseFault c s) := by
  rintro _ _ ⟨⟩ ⟨⟩
  exact h

theorem respond {v : Nat} (h : s.fault = none) : FaultsAmong cs (respond v s) := by
  rintro _ c ⟨⟩ hc
  rw [answer_fault, h] at hc
  cases hc

theorem stop (f : Fault) : FaultsAmong cs (.fault f) := fun _ _ h => nomatch h

theorem unlessFaulted {r : Result} (hs : s.fault = none) (h : FaultsAmong cs r) :
    FaultsAmong cs (unlessFaulted s r) := by
  rwa [unlessFaulted_none hs]

theorem ite {p : Prop} [Decidable p] {r r' : Result} (h : FaultsAmong cs r) (h' : FaultsAmong cs r') :
    FaultsAmong cs (if p then r else r') := by
  split
  · exact h
  · exact h'

theorem takeIndexAndRespond {k v : Nat} (hs : s.fault = none) : FaultsAmong cs (takeIndexAndRespond k v s) := by
  unfold Machine.takeIndexAndRespond
  split
  · exact .stop _
  · next t ht => exact .respond ((takeIndex_frame ht).1.trans hs)

end FaultsAmong

theorem eq_sealed_or_full_of_reserveFault {b : Bank} {c : FaultCode} (h : b.reserveFault = some c) :
    c = .tableSealed ∨ c = .tableFull := by
  unfold Bank.reserveFault at h
  split_ifs at h
  · exact .inl (Option.some.inj h).symm
  · exact .inr (Option.some.inj h).symm

/-- A command on an unfaulted block leaves no fault but those R251 lists it with. -/
theorem exec_faultsAmong {s : State} (hs : s.fault = none) (i : Instr) : FaultsAmong (faultsOf i) (exec i s) := by
  cases i with
  | sysReset => exact .respond rfl
  | sysNop | sysStatus | ctSize _ | ctDeclen _ | ctBytelen _ | ctUlen _ | lzwNext =>
    exact .unlessFaulted hs (.respond hs)
  | packTcf _ _ _ _ | packIcf _ _ _ _ => exact .unlessFaulted hs (.ite (.respond hs) .raise)
  | packGcf _ _ _ => exact .unlessFaulted hs (.ite .raise (.ite .raise (.respond hs)))
  | ctNew _ => exact .unlessFaulted hs (.respond (by simpa))
  | ctInsert _ _ | bpPush _ _ =>
    exact .unlessFaulted hs (.ite .raise (.ite .raise (.ite (.respond (by simpa)) .raise)))
  | ctLookup _ _ =>
    refine .unlessFaulted hs ?_
    split
    · exact .raise
    · exact .respond hs
  | ctColorAt _ _ => exact .unlessFaulted hs (.ite (.respond hs) .raise)
  | ctReserve _ | ctTransp _ =>
    refine .unlessFaulted hs ?_
    split
    · next c hc => exact .raise (by simpa using eq_sealed_or_full_of_reserveFault hc)
    · exact .respond (by simpa)
  | ctSerialize _ | lzwStart _ => exact .unlessFaulted hs (.ite (.respond (by simpa)) .raise)
  | lzwSym _ => exact .unlessFaulted hs (.ite .raise (.ite (.takeIndexAndRespond hs) .raise))
  | lzwPix _ =>
    refine .unlessFaulted hs (.ite .raise ?_)
    split
    · exact .raise
    · exact .ite (.takeIndexAndRespond hs) .raise
  | lzwEnd =>
    refine .unlessFaulted hs ?_
    split
    · exact .raise
    · exact .raise
    · split
      · exact .stop _
      · exact .respond (by simpa)
  | bpFlush => exact .unlessFaulted hs (.ite .raise (.respond (by simpa)))

/-- Settles O17, by `exec_faultsAmong`: each fault on a command's list is one whose row of R251 names the command. -/
theorem faultsComeFromTheirCommands : Obligations.FaultsComeFromTheirCommands := by
  unfold Obligations.FaultsComeFromTheirCommands
  refine ⟨rfl, fun i s t c hs h ht => ?_⟩
  have hmem : c ∈ faultsOf i := exec_faultsAmong hs i t c h ht
  clear ht
  revert c -- for each command, a claim about every fault of its list
  cases i <;> simp

end Sys2Proof.Machine
